-- ==== Sys2Proof/Word.lean ====
section
/-! DEFINITION. The two word types of the hardware: a 32-bit register or command word (R7, R54) and a
byte of `SRC` or `PB` (R24, R25). All quantities are unsigned. -/

namespace Sys2Proof

/-- A register or a command word: 32 bits, unsigned (R7). -/
abbrev Word := BitVec 32

/-- A byte of `SRC` or `PB` (R24, R25, R49). -/
abbrev Byte := BitVec 8

end Sys2Proof
end

