-- ==== Sys2Proof/Syntax.lean ====
section
/-! DEFINITION. The instructions of the machine: the six commands of the opcode map (R56), one
constructor for each row of `spec/opcode_table.json`. -/

namespace Sys2Proof

/-- A command (R56). Register operands are fixed by the opcode (R54), so only ROTATE has a field. -/
inductive Instr where
  /-- PACK (R63). -/
  | pack
  /-- ROTATE, with `IMM16` as the natural number it stands for (R55): degrees clockwise (R58). -/
  | rotate (angle : Nat)
  /-- STRIDE (R81). -/
  | stride
  /-- BITADDR (R82). -/
  | bitaddr
  /-- TAILMASK (R83). -/
  | tailmask
  /-- CLEAR (R84). -/
  | clear
  deriving DecidableEq, Repr

end Sys2Proof
end

