-- ==== Sys2Proof/WellFormed.lean ====
section
/-! DEFINITION. Which commands a command word can carry: the one check is that ROTATE's angle fits the
16 bits of `IMM16` (R54, R55: "0 .. 65535"). An angle that fits but is not 0, 90, 180 or 270 is well
formed: it decodes to ROTATE and ROTATE itself rejects it (R58, R72). -/

namespace Sys2Proof

/-- The fields of the command fit its word (R54, R55). -/
def Instr.wf : Instr → Bool
  | .rotate angle => decide (angle < 2 ^ 16)
  | .pack => true
  | .stride => true
  | .bitaddr => true
  | .tailmask => true
  | .clear => true

end Sys2Proof
end

