-- ==== Sys2Proof/Decode.lean ====
section
/-! DEFINITION. The command word (R54 to R59): its fields, the opcode map, a total decoder that rejects
every other word by name (R57), and the encoder written from the same map. The unit is the 32-bit word
the host writes to `CMD`; there is no byte order to choose (R34, R59). -/

namespace Sys2Proof

/-- Why a word is `ILLEGAL` (R57): the three ways R57 lists. -/
inductive Illegal where
  /-- `OPC = 0x00` or `OPC >= 0x07`. -/
  | opcode
  /-- `RSV != 0`. -/
  | reservedBits
  /-- `IMM16 != 0` on a command without an immediate. -/
  | immediate
  deriving DecidableEq, Repr

/-- `OPC = w[7:0]` (R55). -/
def opcField (w : Word) : BitVec 8 := w.extractLsb' 0 8

/-- `RSV = w[15:8]` (R55). -/
def rsvField (w : Word) : BitVec 8 := w.extractLsb' 8 8

/-- `IMM16 = w[31:16]` (R55). -/
def imm16Field (w : Word) : BitVec 16 := w.extractLsb' 16 16

/-- A command without an immediate is legal only with `IMM16 = 0` (R54, R57). -/
def withoutImmediate (w : Word) (i : Instr) : Except Illegal Instr :=
  if imm16Field w = 0 then .ok i else .error .immediate

/-- Decoding (R57): total on 32-bit words; `.error` is `ILLEGAL`. -/
def decode (w : Word) : Except Illegal Instr :=
  if rsvField w = 0 then
    match (opcField w).toNat with
    | 1 => withoutImmediate w .pack
    | 2 => .ok (.rotate (imm16Field w).toNat)
    | 3 => withoutImmediate w .stride
    | 4 => withoutImmediate w .bitaddr
    | 5 => withoutImmediate w .tailmask
    | 6 => withoutImmediate w .clear
    | _ => .error .opcode
  else .error .reservedBits

/-- A row of the opcode map (R56): a word `w` is the row's command when `w & mask = match`. -/
structure OpcodeRow where
  mnemonic : String
  matchWord : Word
  mask : Word
  deriving DecidableEq, Repr

/-- The row of R56 for each command. -/
def opcodeRow : Instr → OpcodeRow
  | .pack => { mnemonic := "PACK", matchWord := 0x00000001, mask := 0xFFFFFFFF }
  | .rotate _ => { mnemonic := "ROTATE", matchWord := 0x00000002, mask := 0x0000FFFF }
  | .stride => { mnemonic := "STRIDE", matchWord := 0x00000003, mask := 0xFFFFFFFF }
  | .bitaddr => { mnemonic := "BITADDR", matchWord := 0x00000004, mask := 0xFFFFFFFF }
  | .tailmask => { mnemonic := "TAILMASK", matchWord := 0x00000005, mask := 0xFFFFFFFF }
  | .clear => { mnemonic := "CLEAR", matchWord := 0x00000006, mask := 0xFFFFFFFF }

/-- The six rows of R56. -/
def opcodeMap : List OpcodeRow :=
  [opcodeRow .pack, opcodeRow (.rotate 0), opcodeRow .stride, opcodeRow .bitaddr, opcodeRow .tailmask,
    opcodeRow .clear]

/-- The command word of a command (R54, R56, R60: `(deg << 16) | 0x02` for ROTATE). -/
def encode (i : Instr) : Word :=
  match i with
  | .rotate angle => (BitVec.ofNat 32 angle <<< 16) ||| (opcodeRow i).matchWord
  | .pack => (opcodeRow i).matchWord
  | .stride => (opcodeRow i).matchWord
  | .bitaddr => (opcodeRow i).matchWord
  | .tailmask => (opcodeRow i).matchWord
  | .clear => (opcodeRow i).matchWord

/-- The command word whose bits are those of `w` below `nbits` and 0 above (bit 0 the least
significant, as `spec/opcode_table.json` numbers them). -/
def tableWord (nbits w : Nat) : Word := BitVec.ofNat 32 (w % 2 ^ nbits)

/-- What the decoder reads from a word of the opcode table; `none` where it refuses. -/
def decodeTableWord (nbits w : Nat) : Option Instr :=
  (decode (tableWord nbits w)).toOption

end Sys2Proof
end

