-- ==== Sys2Proof/Config.lean ====
section
/-! DEFINITION. What an implementation fixes (R4 to R6) and the one free value of the spec, the
contents of `SRC` at reset (R31). -/

namespace Sys2Proof.Config

/-- The parameters of the step function (`00_scope.md` section 5). The spec leaves the two capacities
open, so the model carries them in the state and every statement holds for all their values. -/
structure Params where
  /-- `SRC_CAP`: bytes of the pixel buffer (R4). -/
  srcCap : Nat
  /-- `PB_CAP`: bytes of the largest packed bitmap (R5). -/
  pbCap : Nat
  /-- `BPP16`: bytes of a pixel at depth 16 (R6). -/
  bpp16 : Nat
  deriving DecidableEq, Repr

/-- The ranges the spec gives the parameters: R4, R5, and `n <= 4` of R53 (c) for `BPP16`. -/
abbrev Params.wf (p : Params) : Prop :=
  1 ≤ p.srcCap ∧ p.srcCap ≤ 2 ^ 32 ∧ 1 ≤ p.pbCap ∧ p.pbCap ≤ 2 ^ 32 - 1 ∧ 1 ≤ p.bpp16 ∧ p.bpp16 ≤ 4

/-- The test-vector configuration of `00_scope.md` section 5. DESIGN CHOICE (log entry 4): these are the
parameters of `State.reset`; no statement rests on them. -/
def testVector : Params := { srcCap := 4096, pbCap := 1024, bpp16 := 2 }

/-- `SRC0` (R31): the byte at an offset after the reset of a given number. A free value, unsafe to
assume anything of: the spec says "arbitrary but stable until written; re-drawn at every reset"
(D35), so the number of resets is an argument (log entry 5). -/
opaque src0 : Nat → Nat → Byte

end Sys2Proof.Config
end

