-- ==== Sys2Proof/Machine/Types.lean ====
section
/-! DEFINITION. The plain types the state and the host's interface are made of: error kinds (R85),
bitmap kinds (R15), register names (R9), the host's transactions (R33), reset (R98), and what a
transaction returns. -/

namespace Sys2Proof.Machine

/-- The three error kinds (R85). -/
inductive ErrorKind where
  /-- Code 1 (R86). -/
  | unsupportedFormat
  /-- Code 2 (R87). -/
  | outOfMemory
  /-- Code 3 (R88). -/
  | invalidArgument
  deriving DecidableEq, Repr

/-- `STATUS.PB_KIND` (R15). -/
inductive PbKind where
  /-- `NONE`: no packed bitmap. -/
  | absent
  /-- `BITS1`: one bit per pixel. -/
  | bits1
  /-- `RAW`: a byte copy. -/
  | raw
  deriving DecidableEq, Repr

/-- The twelve registers of the file, in index order (R9). -/
inductive RegName where
  | width | height | format | arg | cmd | status
  | pbWidth | pbHeight | pbStride | pbSize | result0 | result1
  deriving DecidableEq, Repr

/-- One host transaction (R33). There is no write to `PB`. Indexes and offsets are naturals: how far
the platform's map reaches is not the model's (R23, R37). -/
inductive Transaction where
  /-- `RegRead(i)` (R34). -/
  | regRead (i : Nat)
  /-- `RegWrite(i, v)` (R34). -/
  | regWrite (i : Nat) (v : Word)
  /-- `SrcRead(a)` (R35). -/
  | srcRead (a : Nat)
  /-- `SrcWrite(a, v)` (R35). -/
  | srcWrite (a : Nat) (v : Byte)
  /-- `PbRead(a)` (R36). -/
  | pbRead (a : Nat)
  deriving DecidableEq, Repr

/-- What can happen to the machine from outside: a transaction (R33), or reset, "an event from outside
the five transactions" (R98). -/
inductive HostEvent where
  | transaction (t : Transaction)
  | reset
  deriving DecidableEq, Repr

/-- What a reading transaction returns (R33); a writing one returns nothing. -/
inductive Reply where
  | word (v : Word)
  | byte (v : Byte)
  deriving DecidableEq, Repr

end Sys2Proof.Machine
end

