-- ==== Sys2Proof/Machine/Flags.lean ====
section
/-! DEFINITION. The flags of this hardware are the two fields of `STATUS` (R16): their codes and the
word `STATUS` reads as (R15). There are no arithmetic condition codes. -/

namespace Sys2Proof.Machine

/-- The code of an error kind in `STATUS.ERR` (R15, R85). -/
def ErrorKind.code : ErrorKind → Word
  | .unsupportedFormat => 1
  | .outOfMemory => 2
  | .invalidArgument => 3

/-- `STATUS.ERR`: 0 when there is no error (R15). -/
def errCode : Option ErrorKind → Word
  | none => 0
  | some e => e.code

/-- The code of a bitmap kind in `STATUS.PB_KIND` (R15). -/
def PbKind.code : PbKind → Word
  | .absent => 0
  | .bits1 => 1
  | .raw => 2

/-- The word `STATUS` reads as: `ERR` in 1:0, `PB_KIND` in 5:4, every other bit 0 (R15). -/
def statusWord (err : Option ErrorKind) (kind : PbKind) : Word :=
  errCode err ||| (kind.code <<< 4)

end Sys2Proof.Machine
end

