-- ==== Sys2Proof/Machine/Bits.lean ====
section
/-! DEFINITION. The row-stride and bit-mask helpers (R42 to R46): pure functions of naturals, and the
bit access to a 1-bit-per-pixel byte array. -/

namespace Sys2Proof.Machine

/-- `stride1(w)` (R42): bytes of a 1-bit row of `w` pixels. -/
def stride1 (w : Nat) : Nat := w / 8 + if w % 8 = 0 then 0 else 1

/-- `bytePos(b)` (R43): the byte of its row that holds the pixel of bit index `b`. -/
def bytePos (b : Nat) : Nat := b / 8

/-- `bitMask(b)` (R44): the mask of that pixel within its byte, MSB-first (R8, R38). -/
def bitMask (b : Nat) : Byte := 0x80#8 >>> (b % 8)

/-- `tailMask(w)` (R45): the valid bits of the last byte of a row of `w` pixels; the padding is the
numerically low end (C1). -/
def tailMask (w : Nat) : Byte := if w % 8 = 0 then 0xFF#8 else 0xFF#8 <<< (8 - w % 8)

/-- The offset of the byte that holds pixel `(x, y)` in an array of the given row stride (R46, R47). -/
def bitOffset (stride x y : Nat) : Nat := y * stride + bytePos x

/-- `getBit` (R46): pixel `(x, y)` is set. Beyond the end of the array there is no byte and the answer
is "clear" (log entry 8: no bitmap the machine can hold is read there). -/
def getBit (A : List Byte) (stride x y : Nat) : Bool :=
  decide ((A[bitOffset stride x y]?).getD 0 &&& bitMask x ≠ 0)

/-- `setBit` (R46). -/
def setBit (A : List Byte) (stride x y : Nat) : List Byte :=
  A.modify (bitOffset stride x y) (· ||| bitMask x)

/-- `clearBit` (R46). -/
def clearBit (A : List Byte) (stride x y : Nat) : List Byte :=
  A.modify (bitOffset stride x y) (· &&& ~~~bitMask x)

/-- All pixel positions `(x, y)` of a `w` by `h` image, row 0 first, left to right (R38). -/
def pixels (w h : Nat) : List (Nat × Nat) :=
  (List.range h).flatMap fun y => (List.range w).map fun x => (x, y)

end Sys2Proof.Machine
end

