-- ==== Sys2Proof/Machine/Operands.lean ====
section
/-! DEFINITION. The operand forms: the fields of `FORMAT` (R12), bytes per pixel (R41), the choice of
packing strategy (R64) with its strides and output kind (R63), and the rotation an angle names (R58,
R76). -/

namespace Sys2Proof.Machine

/-- The bits of `FORMAT` that hold anything; the others are RAZ/WI (R12). -/
def formatMask : Word := 0x000103FF

/-- `FORMAT.DEPTH`, bits 7:0, as a plain number (R12). -/
def formatDepth (v : Word) : Nat := (v.extractLsb' 0 8).toNat

/-- The channel layouts (R12). -/
inductive Layout where
  | mono | rgb | rgba
  deriving DecidableEq, Repr

/-- The layout code of `FORMAT.LAYOUT` (R12, R61). -/
def Layout.code : Layout → Word
  | .mono => 0
  | .rgb => 1
  | .rgba => 2

/-- `FORMAT.LAYOUT`, bits 9:8; the code 3 is reserved and names no layout (R12). -/
def formatLayout (v : Word) : Option Layout :=
  match (v.extractLsb' 8 2).toNat with
  | 0 => some .mono
  | 1 => some .rgb
  | 2 => some .rgba
  | _ => none

/-- `FORMAT.RAW`, bit 16 (R12). -/
def formatRaw (v : Word) : Bool := v.getLsbD 16

/-- `bpp(depth, layout)` (R41): defined only for the raw-capable formats. -/
def bpp (p : Config.Params) (depth : Nat) (layout : Layout) : Option Nat :=
  match depth, layout with
  | 8, .rgb => some 3
  | 8, .rgba => some 4
  | 16, .mono => some p.bpp16
  | 16, .rgb => some p.bpp16
  | 16, .rgba => some p.bpp16
  | _, _ => none

/-- The packing strategies (R64); classification and raw copying carry the bytes per pixel they use. -/
inductive Strategy where
  /-- `S_MONO` (R67). -/
  | mono
  /-- `S_CLASSIFY` (R68). -/
  | classify (n : Nat)
  /-- `S_RAW` (R69). -/
  | rawCopy (n : Nat)
  deriving DecidableEq, Repr

/-- `strategy(d, l, r)` (R64); `none` is `UNSUPPORTED`. `RAW` is ignored at depths 1 and 16. -/
def strategy (p : Config.Params) (depth : Nat) (layout : Option Layout) (raw : Bool) :
    Option Strategy :=
  match depth, layout, raw with
  | 1, some .mono, _ => some .mono
  | 8, some .rgb, false => (bpp p 8 .rgb).map .classify
  | 8, some .rgba, false => (bpp p 8 .rgba).map .classify
  | 8, some .rgb, true => (bpp p 8 .rgb).map .rawCopy
  | 8, some .rgba, true => (bpp p 8 .rgba).map .rawCopy
  | 16, some l, _ => (bpp p 16 l).map .rawCopy
  | _, _, _ => none

/-- The strategy a `FORMAT` word selects (R63, R64). -/
def formatStrategy (p : Config.Params) (v : Word) : Option Strategy :=
  strategy p (formatDepth v) (formatLayout v) (formatRaw v)

/-- `ss` of R63: bytes of a source row of `w` pixels (R39, R40). -/
def Strategy.srcStride (w : Nat) : Strategy → Nat
  | .mono => stride1 w
  | .classify n => w * n
  | .rawCopy n => w * n

/-- `ds` of R63: bytes of a packed row of `w` pixels; it follows the output kind (R19, C2). -/
def Strategy.dstStride (w : Nat) : Strategy → Nat
  | .mono => stride1 w
  | .classify _ => stride1 w
  | .rawCopy n => w * n

/-- The kind of bitmap a strategy makes (R63, R64). -/
def Strategy.kind : Strategy → PbKind
  | .mono => .bits1
  | .classify _ => .bits1
  | .rawCopy _ => .raw

/-- The rotations there are: "enum {0, 90, 180, 270}" (R58). -/
inductive Rotation where
  | deg0 | deg90 | deg180 | deg270
  deriving DecidableEq, Repr

/-- The rotation an angle in degrees names; any other angle names none: no reduction modulo 360 (R58,
R72). -/
def Rotation.ofDegrees : Nat → Option Rotation
  | 0 => some .deg0
  | 90 => some .deg90
  | 180 => some .deg180
  | 270 => some .deg270
  | _ => none

/-- The degrees of a rotation (R58). -/
def Rotation.degrees : Rotation → Nat
  | .deg0 => 0
  | .deg90 => 90
  | .deg180 => 180
  | .deg270 => 270

/-- Width and height are swapped at 90 and 270 degrees (R76). -/
def Rotation.swaps : Rotation → Bool
  | .deg0 => false
  | .deg90 => true
  | .deg180 => false
  | .deg270 => true

/-- The geometric mapping (R76): where source pixel `(rx, ry)` of a `w` by `h` image goes. -/
def Rotation.dest (r : Rotation) (w h : Nat) (p : Nat × Nat) : Nat × Nat :=
  match r with
  | .deg0 => (p.1, p.2)
  | .deg90 => (h - 1 - p.2, p.1)
  | .deg180 => (w - 1 - p.1, h - 1 - p.2)
  | .deg270 => (p.2, w - 1 - p.1)

end Sys2Proof.Machine
end

