-- ==== Sys2Proof/Machine/State.lean ====
section
/-! DEFINITION. The state of the machine: the twelve registers, `SRC`, `PB` (`10_state.md`), the
parameters of the step function, and the model's own record of the host (INVENTORY.md, heading State). -/

namespace Sys2Proof.Machine

/-- `SRC` as the host has written it since the last reset: pairs of offset and byte, offsets strictly
rising, nothing else listed. An offset that is not listed holds no written value; reading it gives the
free value `Config.src0` (R31; log entry 5). -/
abbrev Memory := List Host.Cell

/-- The whole state. Plain data. -/
structure State where
  /-- The parameters `SRC_CAP`, `PB_CAP`, `BPP16` (R4 to R6). No step changes them. -/
  cfg : Config.Params
  /-- `WIDTH` (R10). -/
  width : Word
  /-- `HEIGHT` (R11). -/
  height : Word
  /-- `FORMAT` (R12). -/
  format : Word
  /-- `ARG` (R13). -/
  arg : Word
  /-- `STATUS.ERR` (R15): `none` is code 0. The machine is in the error state when it is not `none` (R91). -/
  err : Option ErrorKind
  /-- `STATUS.PB_KIND` (R15). -/
  pbKind : PbKind
  /-- `PB_WIDTH` (R17). -/
  pbWidth : Word
  /-- `PB_HEIGHT` (R18). -/
  pbHeight : Word
  /-- `PB_STRIDE` (R19). -/
  pbStride : Word
  /-- `PB_SIZE` (R20). -/
  pbSize : Word
  /-- `RESULT0` (R21). -/
  result0 : Word
  /-- `RESULT1` (R22). -/
  result1 : Word
  /-- `SRC` (R24), as written since the last reset. -/
  src : Memory
  /-- The model's own: how many resets there have been; it selects the free contents of `SRC`. -/
  srcEpoch : Nat
  /-- `PB` (R25): exactly the bytes of the current packed bitmap. -/
  pb : List Byte
  /-- The model's own: the host's coming events, the next one first (R28, R62, R110). -/
  script : List HostEvent
  /-- The model's own: what the host has read, the latest first (R33). -/
  replies : List Reply
  deriving DecidableEq, Repr

/-- Faults: there are none. "The machine has no hang, no stuck state and no wait: from every state,
every transaction has exactly one successor state" (R109). Nothing raises one. -/
inductive Fault where
  deriving DecidableEq, Repr

/-- Refusals. -/
inductive Refusal where
  /-- Required by the host's interface: an instruction without a meaning yet. Safe. No arm raises it. -/
  | notModelled (mnemonic : String)
  deriving DecidableEq, Repr

/-- The machine right after reset (R31) for given parameters: every register 0, no bitmap, no error,
`SRC` unspecified (nothing listed). -/
def State.resetWith (p : Config.Params) : State :=
  { cfg := p
    width := 0
    height := 0
    format := 0
    arg := 0
    err := none
    pbKind := .absent
    pbWidth := 0
    pbHeight := 0
    pbStride := 0
    pbSize := 0
    result0 := 0
    result1 := 0
    src := []
    srcEpoch := 0
    pb := []
    script := []
    replies := [] }

/-- The machine right after reset (R31), with the parameters of the spec's test vectors (DESIGN CHOICE,
log entry 4) and no host event pending (log entries 1, 2). -/
def State.reset : State := State.resetWith Config.testVector

/-- The outcome of a step. -/
abbrev Result := Host.Outcome State Fault Refusal

end Sys2Proof.Machine
end

