-- ==== Sys2Proof/Machine/Ops.lean ====
section
/-! DEFINITION. The named operations over the state: the byte memory behind `SRC`, the register file,
reading and writing `SRC` and `PB`, replacing and dropping the packed bitmap (R27), entering and leaving
the error state (R90, R93), the error-state gate (R91) and reset (R98). -/

namespace Sys2Proof.Machine

/-! ### The memory behind `SRC` -/

/-- The byte written at an offset since the last reset, if any. -/
def Memory.read? : Memory → Nat → Option Byte
  | [], _ => none
  | (b, v) :: rest, a => if a = b then some v else Memory.read? rest a

/-- Write a byte, keeping the offsets strictly rising. -/
def Memory.write : Memory → Nat → Byte → Memory
  | [], a, v => [(a, v)]
  | (b, u) :: rest, a, v =>
    if a < b then (a, v) :: (b, u) :: rest
    else if a = b then (a, v) :: rest
    else (b, u) :: Memory.write rest a v

/-- Every listed offset is at least `lo`, and they rise strictly. -/
def Memory.risesFrom : Nat → Memory → Bool
  | _, [] => true
  | lo, (b, _) :: rest => decide (lo ≤ b) && Memory.risesFrom (b + 1) rest

/-- The canonical form: offsets strictly rising. An unlisted offset holds no written value, so no entry
can equal what it holds (log entry 5). -/
def Memory.wf (m : Memory) : Bool := Memory.risesFrom 0 m

/-- Every listed offset lies in `SRC` (R24). -/
def Memory.below (cap : Nat) (m : Memory) : Bool := m.all fun c => decide (c.1 < cap)

/-! ### Reading and writing the two byte spaces -/

/-- `SrcRead(a)` (R35): the byte last written, or `SRC0[a]` (R31), or `0x00` outside `SRC`. -/
def srcRead (s : State) (a : Nat) : Byte :=
  if a < s.cfg.srcCap then (Memory.read? s.src a).getD (Config.src0 s.srcEpoch a) else 0

/-- `SrcWrite(a, v)` (R35): no effect outside `SRC`. -/
def srcWrite (a : Nat) (v : Byte) (s : State) : State :=
  if a < s.cfg.srcCap then { s with src := Memory.write s.src a v } else s

/-- `PbRead(a)` (R36): gated by `PB_KIND` and `PB_SIZE`. (`PB` has `PB_SIZE` bytes, R25, so the default
inside is never used: log entry 8.) -/
def pbRead (s : State) (a : Nat) : Byte :=
  if s.pbKind ≠ .absent ∧ a < s.pbSize.toNat then (s.pb[a]?).getD 0 else 0

/-! ### The register file -/

/-- The register of an index (R9); 12 and above are reserved (R23). -/
def RegName.ofIndex : Nat → Option RegName
  | 0 => some .width
  | 1 => some .height
  | 2 => some .format
  | 3 => some .arg
  | 4 => some .cmd
  | 5 => some .status
  | 6 => some .pbWidth
  | 7 => some .pbHeight
  | 8 => some .pbStride
  | 9 => some .pbSize
  | 10 => some .result0
  | 11 => some .result1
  | _ => none

/-- The index of a register (R9). -/
def RegName.index : RegName → Nat
  | .width => 0
  | .height => 1
  | .format => 2
  | .arg => 3
  | .cmd => 4
  | .status => 5
  | .pbWidth => 6
  | .pbHeight => 7
  | .pbStride => 8
  | .pbSize => 9
  | .result0 => 10
  | .result1 => 11

/-- What the host reads in a register (R10 to R22); `CMD` stores nothing and reads 0 (R14). -/
def regValue (s : State) : RegName → Word
  | .width => s.width
  | .height => s.height
  | .format => s.format
  | .arg => s.arg
  | .cmd => 0
  | .status => statusWord s.err s.pbKind
  | .pbWidth => s.pbWidth
  | .pbHeight => s.pbHeight
  | .pbStride => s.pbStride
  | .pbSize => s.pbSize
  | .result0 => s.result0
  | .result1 => s.result1

/-- `RegRead(i)` (R34); a reserved index reads 0 (R23). -/
def regRead (s : State) (i : Nat) : Word :=
  match RegName.ofIndex i with
  | some r => regValue s r
  | none => 0

/-- Storing a host write in a register (R34): the four operand registers keep it, `FORMAT` masked
(R12); the read-only ones ignore it. `CMD` stores nothing (R14): executing the word is
`hostRegWrite`'s. -/
def storeReg (r : RegName) (v : Word) (s : State) : State :=
  match r with
  | .width => { s with width := v }
  | .height => { s with height := v }
  | .format => { s with format := v &&& formatMask }
  | .arg => { s with arg := v }
  | .cmd => s
  | .status => s
  | .pbWidth => s
  | .pbHeight => s
  | .pbStride => s
  | .pbSize => s
  | .result0 => s
  | .result1 => s

/-- The engine writes `RESULT0` (R21). -/
def setResult0 (v : Word) (s : State) : State := { s with result0 := v }

/-- The engine writes `RESULT1` (R22). -/
def setResult1 (v : Word) (s : State) : State := { s with result1 := v }

/-! ### The packed bitmap -/

/-- `newPB(kind, w, h, stride, bytes)` (R27): the packed bitmap and its descriptors replaced at once.
The stride and the size are stored in 32 bits; they fit whenever the size is at most `PB_CAP` (R53;
log entry 10). -/
def newPB (kind : PbKind) (w h : Word) (stride : Nat) (bytes : List Byte) (s : State) : State :=
  { s with
    pbKind := kind
    pbWidth := w
    pbHeight := h
    pbStride := BitVec.ofNat 32 stride
    pbSize := BitVec.ofNat 32 (stride * h.toNat)
    pb := bytes }

/-- `dropPB()` (R27). -/
def dropPB (s : State) : State :=
  { s with
    pbKind := .absent
    pbWidth := 0
    pbHeight := 0
    pbStride := 0
    pbSize := 0
    pb := [] }

/-! ### Errors -/

/-- Error entry (R90): the kind is recorded, the bitmap dropped, everything else kept. -/
def enterError (e : ErrorKind) (s : State) : State := { dropPB s with err := some e }

/-- The return from the error state (R93), which is also CLEAR's whole effect (R84). -/
def leaveError (s : State) : State := { dropPB s with err := none }

/-- `raise E()` (`00_scope.md` section 7, R90): the command ends in the error entry. -/
def raise (e : ErrorKind) (s : State) : Result := .next (enterError e s)

/-- The error-state gate (R91): in the error state a command other than CLEAR changes nothing. -/
def unlessError (s : State) (command : Result) : Result :=
  match s.err with
  | none => command
  | some _ => .next s

/-! ### Reset and the host's record -/

/-- Reset (R98, R31): every register 0, no bitmap, no error, `SRC` drawn afresh. The parameters are
fixed and the host keeps its own record. -/
def resetMachine (s : State) : State :=
  { State.resetWith s.cfg with
    srcEpoch := s.srcEpoch + 1
    script := s.script
    replies := s.replies }

/-- What a reading transaction returns goes to the host. -/
def reply (r : Reply) (s : State) : State := { s with replies := r :: s.replies }

/-- The host's next event is taken from the script. -/
def withScript (rest : List HostEvent) (s : State) : State := { s with script := rest }

end Sys2Proof.Machine
end

