-- ==== Sys2Proof/Machine/Control.lean ====
section
/-! DEFINITION. CLEAR (R84): the one command obeyed in the error state (R91). -/

namespace Sys2Proof.Machine

/-- CLEAR (R84): the error cleared and the bitmap dropped, in every state. -/
def execClear (s : State) : Result := .next (leaveError s)

end Sys2Proof.Machine
end

