-- ==== Sys2Proof/Machine/Pack.lean ====
section
/-! DEFINITION. The packer: the three strategies (R67 to R69) and PACK (R63). -/

namespace Sys2Proof.Machine

/-- `packMono(W, H)` (R67): every byte of every row inverted, the last of a row masked. `rd` reads a
byte of `SRC`. -/
def packMono (rd : Nat → Byte) (w h : Nat) : List Byte :=
  let s := stride1 w
  (List.range h).flatMap fun y =>
    (List.range s).map fun k =>
      let v := ~~~rd (y * s + k)
      if k + 1 = s then v &&& tailMask w else v

/-- A pixel is dark when its first three bytes are 0 (R68); alpha is not read. -/
def isBlack (rd : Nat → Byte) (p : Nat) : Bool :=
  rd p == 0 && rd (p + 1) == 0 && rd (p + 2) == 0

/-- `packClassify(W, H, n)` (R68): from zeros, the bit of every pure black pixel set. -/
def packClassify (rd : Nat → Byte) (w h n : Nat) : List Byte :=
  let s := stride1 w
  (pixels w h).foldl
    (fun bytes p => if isBlack rd (p.2 * (w * n) + p.1 * n) then setBit bytes s p.1 p.2 else bytes)
    (List.replicate (s * h) 0)

/-- `packRaw(W, H, n)` (R69): every byte of every pixel copied once, in order. -/
def packRaw (rd : Nat → Byte) (w h n : Nat) : List Byte :=
  (List.range h).flatMap fun y =>
    (List.range w).flatMap fun x =>
      (List.range n).map fun c => rd (y * (w * n) + x * n + c)

/-- The bytes the chosen strategy makes (R63). -/
def Strategy.pack (rd : Nat → Byte) (w h : Nat) : Strategy → List Byte
  | .mono => packMono rd w h
  | .classify n => packClassify rd w h n
  | .rawCopy n => packRaw rd w h n

/-- PACK (R63): format (R64), geometry (R65) and capacity (R66) checked in that order (R89), then the
bitmap replaced (R27). -/
def execPack (s : State) : Result :=
  unlessError s <|
    match formatStrategy s.cfg s.format with
    | none => raise .unsupportedFormat s
    | some strat =>
      let w := s.width.toNat
      let h := s.height.toNat
      if w = 0 ∨ h = 0 then raise .invalidArgument s
      else if strat.srcStride w * h > s.cfg.srcCap ∨ strat.dstStride w * h > s.cfg.pbCap then
        raise .outOfMemory s
      else
        .next (newPB strat.kind s.width s.height (strat.dstStride w) (strat.pack (srcRead s) w h) s)

end Sys2Proof.Machine
end

