-- ==== Sys2Proof/Machine/Rotate.lean ====
section
/-! DEFINITION. The rotator: the algorithm (R77) and ROTATE (R71). -/

namespace Sys2Proof.Machine

/-- "set or clear the destination bit according to the source bit's value" (R46, R77). -/
def putBit (D : List Byte) (stride : Nat) (p : Nat × Nat) (v : Bool) : List Byte :=
  if v then setBit D stride p.1 p.2 else clearBit D stride p.1 p.2

/-- `rotateBits` (R77): from zeros, every source pixel put where R76 sends it. `w`, `h`, `stride` are the
source's; `stride2 * h2` bytes is the size of the destination. -/
def rotateBits (S : List Byte) (w h stride : Nat) (r : Rotation) (stride2 h2 : Nat) : List Byte :=
  (pixels w h).foldl
    (fun D p => putBit D stride2 (r.dest w h p) (getBit S stride p.1 p.2))
    (List.replicate (stride2 * h2) 0)

/-- Width of the destination (R76). -/
def Rotation.width2 (r : Rotation) (w h : Word) : Word := if r.swaps then h else w

/-- Height of the destination (R76). -/
def Rotation.height2 (r : Rotation) (w h : Word) : Word := if r.swaps then w else h

/-- ROTATE (R71): angle (R72), kind (R73) and capacity (R74) checked in that order (R89); angle 0 changes
nothing (R75); otherwise the bitmap is replaced by its rotation (R78). -/
def execRotate (angle : Nat) (s : State) : Result :=
  unlessError s <|
    match Rotation.ofDegrees angle with
    | none => raise .invalidArgument s
    | some r =>
      if s.pbKind ≠ .bits1 then raise .unsupportedFormat s
      else if r = .deg0 then .next s
      else
        let w2 := r.width2 s.pbWidth s.pbHeight
        let h2 := r.height2 s.pbWidth s.pbHeight
        let stride2 := stride1 w2.toNat
        if stride2 * h2.toNat > s.cfg.pbCap then raise .outOfMemory s
        else
          .next (newPB .bits1 w2 h2 stride2
            (rotateBits s.pb s.pbWidth.toNat s.pbHeight.toNat s.pbStride.toNat r stride2 h2.toNat) s)

end Sys2Proof.Machine
end

