-- ==== Sys2Proof/Machine/Utilities.lean ====
section
/-! DEFINITION. The utility commands (R80): pure functions of `ARG`, written to the result registers. -/

namespace Sys2Proof.Machine

/-- STRIDE (R81): `RESULT0 <- stride1(ARG)`. -/
def execStride (s : State) : Result :=
  unlessError s (.next (setResult0 (BitVec.ofNat 32 (stride1 s.arg.toNat)) s))

/-- BITADDR (R82): `RESULT0 <- bytePos(ARG)`, `RESULT1 <- bitMask(ARG)` with bits 31:8 zero. -/
def execBitaddr (s : State) : Result :=
  unlessError s
    (.next (setResult1 ((bitMask s.arg.toNat).setWidth 32)
      (setResult0 (BitVec.ofNat 32 (bytePos s.arg.toNat)) s)))

/-- TAILMASK (R83): `RESULT0 <- tailMask(ARG)` with bits 31:8 zero. -/
def execTailmask (s : State) : Result :=
  unlessError s (.next (setResult0 ((tailMask s.arg.toNat).setWidth 32) s))

end Sys2Proof.Machine
end

