-- ==== Sys2Proof/Machine/Dispatch.lean ====
section
/-! DEFINITION. One arm per command (R56, R91). -/

namespace Sys2Proof.Machine

def exec (i : Instr) (s : State) : Host.Outcome State Fault Refusal :=
  match i with
  | .pack => Sys2Proof.Machine.execPack s
  | .rotate angle => Sys2Proof.Machine.execRotate angle s
  | .stride => Sys2Proof.Machine.execStride s
  | .bitaddr => Sys2Proof.Machine.execBitaddr s
  | .tailmask => Sys2Proof.Machine.execTailmask s
  | .clear => Sys2Proof.Machine.execClear s

end Sys2Proof.Machine
end

