-- ==== Sys2Proof/Machine/Transactions.lean ====
section
/-! DEFINITION. The host's transactions (R33 to R36), the dispatch of a `CMD` write (R91), reset as an
event of the host (R98), and performing the next event of the script. -/

namespace Sys2Proof.Machine

/-- A `CMD` write whose word is `ILLEGAL` (R57, R88): `InvalidArgument`, outside the error state. -/
def execIllegal (s : State) : Result := unlessError s (raise .invalidArgument s)

/-- `CmdWrite(w)` (R91). R91 tests the error state before it decodes; here every meaning but CLEAR's
tests it itself, which is the same (log entry 11). -/
def cmdWrite (w : Word) (s : State) : Result :=
  match decode w with
  | .ok i => exec i s
  | .error _ => execIllegal s

/-- `RegWrite(i, v)` (R34): `CMD` executes the word, a reserved index ignores it (R23). -/
def hostRegWrite (i : Nat) (v : Word) (s : State) : Result :=
  match RegName.ofIndex i with
  | some .cmd => cmdWrite v s
  | some r => .next (storeReg r v s)
  | none => .next s

/-- One transaction (R33), one atomic step (R3). -/
def transact (t : Transaction) (s : State) : Result :=
  match t with
  | .regRead i => .next (reply (.word (regRead s i)) s)
  | .regWrite i v => hostRegWrite i v s
  | .srcRead a => .next (reply (.byte (srcRead s a)) s)
  | .srcWrite a v => .next (srcWrite a v s)
  | .pbRead a => .next (reply (.byte (pbRead s a)) s)

/-- One event of the host: a transaction, or reset between two of them (R98). -/
def hostEvent (e : HostEvent) (s : State) : Result :=
  match e with
  | .transaction t => transact t s
  | .reset => .next (resetMachine s)

/-- The next event of the script, taken from it and performed. With none pending nothing happens: the
engine never acts on its own (R2; log entry 1). -/
def nextEvent (s : State) : Result :=
  match s.script with
  | [] => .next s
  | e :: rest => hostEvent e (withScript rest s)

/-- A write of a word to `CMD`, as a host event (R14). -/
def commandEvent (w : Word) : HostEvent := .transaction (.regWrite RegName.cmd.index w)

/-- The host will write a command word to `CMD` next, before what it had planned. -/
def issueNext (w : Word) (s : State) : State := withScript (commandEvent w :: s.script) s

end Sys2Proof.Machine
end

