-- ==== Sys2Proof/Machine/Step.lean ====
section
/-! DEFINITION. One step of the machine: one event of the host (R3). And where an instruction is taken
from: the data of a `RegWrite` to `CMD` (R52). -/

namespace Sys2Proof.Machine

/-- One step: the host's next event. -/
def step (s : State) : Host.Outcome State Fault Refusal := nextEvent s

/-- The state with one command placed where the next step takes it: a `RegWrite` of its word to `CMD`
in front of the host's script (log entry 2). -/
def State.withFetchWord (s : State) (nbits w : Nat) : State := issueNext (tableWord nbits w) s

end Sys2Proof.Machine
end

