-- ==== Sys2Proof/Machine/Script.lean ====
section
/-! DEFINITION. The host-script notation (R60, R61) as abstract syntax, each statement with the
transactions it stands for. The expected value that may trail a reading statement (`=> value`) is kept
as data; it changes nothing the machine does. -/

namespace Sys2Proof.Machine

/-- A script statement (R60) or pseudo-statement (R61). -/
inductive Stmt where
  /-- `wr NAME, value`. -/
  | wr (r : RegName) (v : Word)
  /-- `rd NAME`, optionally `=> value`. -/
  | rd (r : RegName) (want : Option Word)
  /-- `sw addr, byte`. -/
  | sw (a : Nat) (v : Byte)
  /-- `sr addr`, optionally `=> byte`. -/
  | sr (a : Nat) (want : Option Byte)
  /-- `pr addr`, optionally `=> byte`. -/
  | pr (a : Nat) (want : Option Byte)
  /-- `cmd MNEMONIC` and `cmd ROTATE, deg`. -/
  | cmd (i : Instr)
  /-- `cmd .word w`. -/
  | cmdWord (w : Word)
  /-- `rot0`, `rot90`, `rot180`, `rot270`. -/
  | rot (r : Rotation)
  /-- `setfmt depth, LAYOUT, raw`. -/
  | setfmt (depth : Nat) (layout : Layout) (raw : Bool)
  /-- `setdim w, h`. -/
  | setdim (w h : Word)
  /-- `fill addr, b0 b1 ... bk`. -/
  | fill (a : Nat) (bytes : List Byte)
  /-- `dump n => b0 b1 ...`. -/
  | dump (bytes : List Byte)
  /-- `stride1 w`. -/
  | stride1 (w : Word)
  /-- `bitaddr b`. -/
  | bitaddr (b : Word)
  /-- `tailmask w`. -/
  | tailmask (w : Word)
  deriving DecidableEq, Repr

/-- The word of `setfmt` (R61): `depth | (code(LAYOUT) << 8) | (raw << 16)`. -/
def formatWord (depth : Nat) (layout : Layout) (raw : Bool) : Word :=
  BitVec.ofNat 32 depth ||| (layout.code <<< 8) ||| ((if raw then 1#32 else 0#32) <<< 16)

/-- `wr NAME, value`: a `RegWrite`. -/
def writeReg (r : RegName) (v : Word) : Transaction := .regWrite r.index v

/-- A write of a command word to `CMD`. -/
def writeCmd (i : Instr) : Transaction := writeReg .cmd (encode i)

/-- The transactions a statement stands for, in order (R60, R61). -/
def Stmt.expand : Stmt → List Transaction
  | .wr r v => [writeReg r v]
  | .rd r _ => [.regRead r.index]
  | .sw a v => [.srcWrite a v]
  | .sr a _ => [.srcRead a]
  | .pr a _ => [.pbRead a]
  | .cmd i => [writeCmd i]
  | .cmdWord w => [writeReg .cmd w]
  | .rot r => [writeCmd (.rotate r.degrees)]
  | .setfmt d l raw => [writeReg .format (formatWord d l raw)]
  | .setdim w h => [writeReg .width w, writeReg .height h]
  | .fill a bytes => bytes.zipIdx.map fun p => .srcWrite (a + p.2) p.1
  | .dump bytes => bytes.zipIdx.map fun p => .pbRead p.2
  | .stride1 w => [writeReg .arg w, writeCmd .stride, .regRead RegName.result0.index]
  | .bitaddr b =>
    [writeReg .arg b, writeCmd .bitaddr, .regRead RegName.result0.index, .regRead RegName.result1.index]
  | .tailmask w => [writeReg .arg w, writeCmd .tailmask, .regRead RegName.result0.index]

/-- The reply a reading statement says its transactions return, `none` where it says nothing (R60). -/
def Stmt.expected : Stmt → List (Option Reply)
  | .wr _ _ => []
  | .rd _ want => [want.map .word]
  | .sw _ _ => []
  | .sr _ want => [want.map .byte]
  | .pr _ want => [want.map .byte]
  | .cmd _ => []
  | .cmdWord _ => []
  | .rot _ => []
  | .setfmt _ _ _ => []
  | .setdim _ _ => []
  | .fill _ _ => []
  | .dump bytes => bytes.map fun v => some (.byte v)
  | .stride1 _ => [none]
  | .bitaddr _ => [none, none]
  | .tailmask _ => [none]

/-- A script executed top to bottom (R60): the host events of its statements. -/
def scriptEvents (script : List Stmt) : List HostEvent :=
  script.flatMap fun st => st.expand.map .transaction

/-- What a script expects the host to have read at its end, the latest first. -/
def scriptExpected (script : List Stmt) : List (Option Reply) :=
  (script.flatMap Stmt.expected).reverse

end Sys2Proof.Machine
end

