-- ==== Sys2Proof/Safety.lean ====
section
/-! DEFINITION. What claims are stated in: the invariants of the packed bitmap and of the state (R16,
R26), what the host must have done before PACK (R100), when the bitmap is a result and which bytes it is
(R102, R103), and how a run ends (R110). -/

namespace Sys2Proof.Machine

/-- The invariants of the packed bitmap when there is one (R26, R19, R25). -/
structure State.BitmapInv (s : State) : Prop where
  /-- R25: `PB` has exactly `PB_SIZE` bytes. -/
  length_eq : s.pb.length = s.pbSize.toNat
  /-- R26 (b). -/
  size_eq : s.pbSize.toNat = s.pbStride.toNat * s.pbHeight.toNat
  /-- R26 (b). -/
  size_le : s.pbSize.toNat ≤ s.cfg.pbCap
  /-- R26 (c). -/
  width_pos : 1 ≤ s.pbWidth.toNat
  /-- R26 (c). -/
  height_pos : 1 ≤ s.pbHeight.toNat
  /-- R26 (d), R19: the stride of a 1-bit bitmap. -/
  stride_bits1 : s.pbKind = .bits1 → s.pbStride.toNat = stride1 s.pbWidth.toNat
  /-- R19: the stride of a raw bitmap is a whole number of bytes per pixel. -/
  stride_raw : s.pbKind = .raw →
    ∃ n, (n = 3 ∨ n = 4 ∨ n = s.cfg.bpp16) ∧ s.pbStride.toNat = s.pbWidth.toNat * n
  /-- R26 (d): the padding bits of every row of a 1-bit bitmap are zero. -/
  padding_zero : s.pbKind = .bits1 → ∀ y < s.pbHeight.toNat, ∀ b : Byte,
    s.pb[y * s.pbStride.toNat + s.pbStride.toNat - 1]? = some b → b &&& ~~~tailMask s.pbWidth.toNat = 0

/-- The invariant of the machine: what the spec says holds in every reachable state. -/
structure State.Inv (s : State) : Prop where
  /-- R4 to R6: the parameters are legal. -/
  cfg_wf : s.cfg.wf
  /-- The memory behind `SRC` keeps its canonical form. -/
  src_wf : Memory.wf s.src = true
  /-- R24: nothing is written beyond `SRC_CAP`. -/
  src_below : Memory.below s.cfg.srcCap s.src = true
  /-- R12: the reserved bits of `FORMAT` read as zero. -/
  format_reserved : s.format &&& ~~~formatMask = 0
  /-- R16: an error implies that there is no bitmap. -/
  err_absent : s.err ≠ none → s.pbKind = .absent
  /-- R17 to R20, R25: without a bitmap the descriptors are 0 and `PB` is empty. -/
  absent_zero : s.pbKind = .absent →
    s.pbWidth = 0 ∧ s.pbHeight = 0 ∧ s.pbStride = 0 ∧ s.pbSize = 0 ∧ s.pb = []
  /-- R26. -/
  bitmap : s.pbKind ≠ .absent → s.BitmapInv
  /-- R22: bits 31:8 of `RESULT1` are zero. -/
  result1_byte : s.result1.toNat < 256

/-- The part of the state that is the spec's bitmap: kind, geometry and bytes (`95_test_vectors.md`
section 1.1). -/
structure Bitmap where
  kind : PbKind
  width : Word
  height : Word
  stride : Word
  bytes : List Byte
  deriving DecidableEq, Repr

/-- The bitmap the machine holds. -/
def State.bitmap (s : State) : Bitmap :=
  { kind := s.pbKind, width := s.pbWidth, height := s.pbHeight, stride := s.pbStride, bytes := s.pb }

/-- `PB` and the descriptors describe a valid result (R102). -/
def State.holdsResult (s : State) : Prop := s.err = none ∧ s.pbKind ≠ .absent

/-- What the writer collaborator reads (R103): `PbRead(0)`, ..., `PbRead(PB_SIZE - 1)`. -/
def State.writerOutput (s : State) : List Byte := (List.range s.pbSize.toNat).map (pbRead s)

/-- The byte at an offset of `SRC` has been written since the last reset (R100 (c)). -/
def State.srcWritten (s : State) (a : Nat) : Prop := (Memory.read? s.src a).isSome = true

/-- Bytes of a source row of `w` pixels, written out (R39, R40, R63). It is `Strategy.srcStride`'s value
by another text, so that a statement about PACK does not take the stride from PACK. -/
def Strategy.sourceRow (w : Nat) : Strategy → Nat
  | .mono => (w + 7) / 8
  | .classify n => w * n
  | .rawCopy n => w * n

/-- Bytes of a packed row of `w` pixels, written out (R19, R63). -/
def Strategy.packedRow (w : Nat) : Strategy → Nat
  | .mono => (w + 7) / 8
  | .classify _ => (w + 7) / 8
  | .rawCopy n => w * n

/-- `FORMAT` is supported, and `ss` and `ds` are the bytes of a source row and of a packed row of `WIDTH`
pixels: R63's strides under R64's conditions, written out with R41's bytes per pixel. -/
def State.strides (s : State) (ss ds : Nat) : Prop :=
  let w := s.width.toNat
  let d := s.format.toNat % 256
  let l := s.format.toNat / 256 % 4
  let raw := s.format.getLsbD 16
  (d = 1 ∧ l = 0 ∧ ss = (w + 7) / 8 ∧ ds = (w + 7) / 8) ∨
  (d = 8 ∧ l = 1 ∧ raw = false ∧ ss = w * 3 ∧ ds = (w + 7) / 8) ∨
  (d = 8 ∧ l = 2 ∧ raw = false ∧ ss = w * 4 ∧ ds = (w + 7) / 8) ∨
  (d = 8 ∧ l = 1 ∧ raw = true ∧ ss = w * 3 ∧ ds = w * 3) ∨
  (d = 8 ∧ l = 2 ∧ raw = true ∧ ss = w * 4 ∧ ds = w * 4) ∨
  (d = 16 ∧ l ≤ 2 ∧ ss = w * s.cfg.bpp16 ∧ ds = w * s.cfg.bpp16)

/-- Pixel `(x, y)` of a 1-bit-per-pixel array by byte and bit (R8, R38, R46): bit `7 - x % 8` of the byte
at `y * stride + x / 8`. Written out apart from `getBit`, so that a statement names bytes. -/
def pixelAt (A : List Byte) (stride x y : Nat) : Bool :=
  ((A[y * stride + x / 8]?).getD 0).getLsbD (7 - x % 8)

/-- What PACK checks (R100 (a), (b), (d)): supported format, geometry at least 1 by 1, and a frame that
fits both buffers. -/
def State.packable (s : State) (strat : Strategy) : Prop :=
  formatStrategy s.cfg s.format = some strat ∧ 1 ≤ s.width.toNat ∧ 1 ≤ s.height.toNat ∧
    strat.sourceRow s.width.toNat * s.height.toNat ≤ s.cfg.srcCap ∧
    strat.packedRow s.width.toNat * s.height.toNat ≤ s.cfg.pbCap

/-- What the host must have done before PACK (R100), (c) included, which the engine does not check. -/
def State.readyToPack (s : State) (strat : Strategy) : Prop :=
  s.packable strat ∧
    ∀ a < strat.sourceRow s.width.toNat * s.height.toNat, s.srcWritten a

/-- How a run ends (R110). -/
inductive RunEnd where
  /-- With a result: the bitmap. -/
  | result (b : Bitmap)
  /-- Failed, with the kind in `ERR`. -/
  | failed (e : ErrorKind)
  /-- Empty. -/
  | empty
  deriving DecidableEq, Repr

/-- The end of a run whose last state this is (R110). -/
def State.runEnd (s : State) : RunEnd :=
  match s.err, s.pbKind with
  | some e, _ => .failed e
  | none, .absent => .empty
  | none, _ => .result s.bitmap

/-- A state the machine can be in: from reset with some legal parameters and some host script, after
some number of steps. The script is the host's, so it is free (R110). -/
inductive Reachable : State → Prop where
  | start (p : Config.Params) (script : List HostEvent) (h : p.wf) :
      Reachable { State.resetWith p with script := script }
  | step {s t : State} (h : Reachable s) (hs : Machine.step s = .next t) : Reachable t

end Sys2Proof.Machine
end

