-- ==== Sys2Proof/Certificates/Slice0/Obligations.lean ====
section
/-! DEFINITION. The statements for the provers, one for each rule or claim of the spec they formalise.
Each is stated over all states and operands; a premise is the one the rule itself names, or a conjunct of
the machine's invariant that StepKeepsInvariant and ResetMeetsInvariant state. -/

open Sys2Proof Sys2Proof.Machine

namespace Sys2Proof.Claims

/-- The state R90 says an error leaves: `ERR <- code(E)`, the bitmap dropped, the rest kept. -/
def erred (e : ErrorKind) (s : State) : State :=
  { s with
    err := some e, pbKind := .absent, pbWidth := 0, pbHeight := 0, pbStride := 0, pbSize := 0, pb := [] }

/-- The state R84 says CLEAR leaves: `STATUS <- 0`, the bitmap dropped, the rest kept. -/
def cleared (s : State) : State :=
  { s with
    err := none, pbKind := .absent, pbWidth := 0, pbHeight := 0, pbStride := 0, pbSize := 0, pb := [] }

/-- The host's next event is the transaction `t`, and `rest` comes after it. -/
def next (s : State) (t : Transaction) (rest : List HostEvent) : Prop :=
  s.script = .transaction t :: rest

/-- A ROTATE of `angle` degrees that succeeds takes `s` to `t`. -/
def rotates (angle : Nat) (s t : State) : Prop :=
  exec (.rotate angle) s = .next t ∧ s.err = none ∧ t.err = none

/-- The machine holds a 1-bit bitmap, with every invariant of the spec. -/
def holdsBits1 (s : State) : Prop := s.Inv ∧ s.err = none ∧ s.pbKind = .bits1

/-- The number of dark pixels of the bitmap (set bits at pixel positions). -/
def darkPixels (s : State) : Nat :=
  ((List.range s.pbHeight.toNat).map fun y =>
    (List.range s.pbWidth.toNat).countP fun x => pixelAt s.pb s.pbStride.toNat x y).sum

/-- Everything the host can read by the transactions of R33 is the same. -/
def visiblyEqual (s t : State) : Prop :=
  s.cfg = t.cfg ∧ (∀ i, regRead s i = regRead t i) ∧ (∀ a, srcRead s a = srcRead t a) ∧
    (∀ a, pbRead s a = pbRead t a)

end Sys2Proof.Claims

open Sys2Proof.Claims

/-! ### Encoding -/

/-- A few command words written out from R56 and R58. -/
def Obligations.CommandWordsDecode : Prop :=
  decode 0x00000001 = .ok .pack ∧
  decode 0x00000002 = .ok (.rotate 0) ∧
  decode 0x005A0002 = .ok (.rotate 90) ∧
  decode 0x00B40002 = .ok (.rotate 180) ∧
  decode 0x010E0002 = .ok (.rotate 270) ∧
  decode 0x80000002 = .ok (.rotate 32768) ∧
  decode 0x00000003 = .ok .stride ∧
  decode 0x00000004 = .ok .bitaddr ∧
  decode 0x00000005 = .ok .tailmask ∧
  decode 0x00000006 = .ok .clear ∧
  decode 0x00000000 = .error .opcode ∧
  decode 0x00000102 = .error .reservedBits ∧
  decode 0x00010006 = .error .immediate

/-- Decoding the word of a well-formed command gives the command back (R54 to R58). -/
def Obligations.DecodeOfEncode : Prop :=
  ∀ i : Instr, i.wf = true → decode (encode i) = .ok i

/-- Every word has at most one meaning, and that command's word is the word itself (R54 to R57). -/
def Obligations.EncodeOfDecode : Prop :=
  ∀ (w : Word) (i : Instr), decode w = .ok i → i.wf = true ∧ encode i = w

/-- R56: the match words and masks of the six rows; a word is the command of a row exactly when
`w & mask = match`; and the rows exclude one another. -/
def Obligations.DecodeMatchesOpcodeRows : Prop :=
  (opcodeMap = [⟨"PACK", 0x00000001, 0xFFFFFFFF⟩, ⟨"ROTATE", 0x00000002, 0x0000FFFF⟩,
    ⟨"STRIDE", 0x00000003, 0xFFFFFFFF⟩, ⟨"BITADDR", 0x00000004, 0xFFFFFFFF⟩,
    ⟨"TAILMASK", 0x00000005, 0xFFFFFFFF⟩, ⟨"CLEAR", 0x00000006, 0xFFFFFFFF⟩]) ∧
  (∀ (w : Word) (i : Instr), decode w = .ok i → w &&& (opcodeRow i).mask = (opcodeRow i).matchWord) ∧
  (∀ (w : Word) (row : OpcodeRow), row ∈ opcodeMap → w &&& row.mask = row.matchWord →
    ∃ i, decode w = .ok i ∧ opcodeRow i = row) ∧
  (∀ (w : Word) (row row' : OpcodeRow), row ∈ opcodeMap → row' ∈ opcodeMap →
    w &&& row.mask = row.matchWord → w &&& row'.mask = row'.matchWord → row = row')

/-- R57: exactly which words are `ILLEGAL`, and what a write of one to `CMD` does outside and inside the
error state. -/
def Obligations.IllegalWordsExactly : Prop :=
  (∀ w : Word, (∃ r, decode w = .error r) ↔
    (w.toNat % 256 = 0 ∨ 7 ≤ w.toNat % 256 ∨ w.toNat / 256 % 256 ≠ 0 ∨
      (w.toNat % 256 ∈ [1, 3, 4, 5, 6] ∧ w.toNat / 65536 ≠ 0))) ∧
  (∀ (s : State) (w : Word) (rest : List HostEvent) (r : Illegal),
    next s (.regWrite 4 w) rest → decode w = .error r →
    (s.err = none → step s = .next (erred .invalidArgument { s with script := rest })) ∧
    (s.err ≠ none → step s = .next { s with script := rest }))

/-! ### Steps -/

/-- When the host's next event is a `RegWrite` to `CMD` of a word that decodes to `i`, the step is `exec`
of `i` on the state with that event taken from the script. That it says so of the error state too is the
model's choice, log entry 11 (DEDUCED): R91 does not decode a word there, and here `exec` carries R91's
gate itself. CommandDispatch states R91's own order. -/
def Obligations.StepRunsDecodedCommand : Prop :=
  ∀ (s : State) (w : Word) (rest : List HostEvent) (i : Instr),
    next s (.regWrite 4 w) rest → decode w = .ok i → step s = exec i { s with script := rest }

/-- Placing a command's word where the next step takes it and stepping runs the command on the state as
it was (the model's convention, log entry 2). -/
def Obligations.PlacedCommandRuns : Prop :=
  ∀ (s : State) (i : Instr), i.wf = true →
    step (s.withFetchWord 32 (encode i).toNat) = exec i s

/-- With no host event pending nothing happens (R2; the model's convention, log entry 1). -/
def Obligations.IdleStepChangesNothing : Prop :=
  ∀ s : State, s.script = [] → step s = .next s

/-- R109: from every state, every host event has a successor state: no hang, no stop. -/
def Obligations.EveryStepHasSuccessor : Prop :=
  ∀ s : State, ∃ t, step s = .next t

/-! ### Registers and memories -/

/-- R34: `RegRead` of each index, and `RegWrite` of each index but `CMD`'s; `CMD` executes the word. -/
def Obligations.RegisterTransactions : Prop :=
  (∀ (s : State) (i : Nat) (rest : List HostEvent), next s (.regRead i) rest →
    ∃ v : Word, step s = .next { s with script := rest, replies := .word v :: s.replies } ∧
      (i = 0 → v = s.width) ∧ (i = 1 → v = s.height) ∧ (i = 2 → v = s.format) ∧ (i = 3 → v = s.arg) ∧
      (i = 4 → v = 0) ∧ (i = 5 → v = statusWord s.err s.pbKind) ∧ (i = 6 → v = s.pbWidth) ∧
      (i = 7 → v = s.pbHeight) ∧ (i = 8 → v = s.pbStride) ∧ (i = 9 → v = s.pbSize) ∧
      (i = 10 → v = s.result0) ∧ (i = 11 → v = s.result1) ∧ (12 ≤ i → v = 0)) ∧
  (∀ (s : State) (i : Nat) (v : Word) (rest : List HostEvent), next s (.regWrite i v) rest →
    (i = 0 → step s = .next { s with script := rest, width := v }) ∧
    (i = 1 → step s = .next { s with script := rest, height := v }) ∧
    (i = 2 → step s = .next { s with script := rest, format := v &&& 0x000103FF }) ∧
    (i = 3 → step s = .next { s with script := rest, arg := v }) ∧
    (i = 4 → step s = cmdWrite v { s with script := rest }) ∧
    (5 ≤ i → step s = .next { s with script := rest }))

/-- R15: the fields of the word `STATUS` reads as, the only six words it can be, and that a host write
to it is ignored. -/
def Obligations.StatusWordFields : Prop :=
  (∀ (e : Option ErrorKind) (k : PbKind),
    (statusWord e k).extractLsb' 2 2 = 0 ∧ (statusWord e k).extractLsb' 6 26 = 0 ∧
    ((statusWord e k).extractLsb' 0 2).toNat =
      (match e with
       | none => 0
       | some .unsupportedFormat => 1
       | some .outOfMemory => 2
       | some .invalidArgument => 3) ∧
    ((statusWord e k).extractLsb' 4 2).toNat =
      (match k with
       | .absent => 0
       | .bits1 => 1
       | .raw => 2)) ∧
  (∀ s : State, s.Inv → regRead s 5 = statusWord s.err s.pbKind ∧
    regRead s 5 ∈ [0x00#32, 0x10#32, 0x20#32, 0x01#32, 0x02#32, 0x03#32]) ∧
  (∀ (s : State) (v : Word) (rest : List HostEvent), next s (.regWrite 5 v) rest →
    step s = .next { s with script := rest }) ∧
  (∀ p : Config.Params, regRead (State.resetWith p) 5 = 0x00000000)

/-- R35: `SrcRead` and `SrcWrite`, in every state. -/
def Obligations.SourceTransactions : Prop :=
  (∀ (s : State) (a : Nat) (v : Byte) (rest : List HostEvent), next s (.srcWrite a v) rest →
    a < s.cfg.srcCap →
    ∃ m : Memory, step s = .next { s with script := rest, src := m } ∧
      srcRead { s with src := m } a = v ∧ ∀ b, b ≠ a → srcRead { s with src := m } b = srcRead s b) ∧
  (∀ (s : State) (a : Nat) (v : Byte) (rest : List HostEvent), next s (.srcWrite a v) rest →
    s.cfg.srcCap ≤ a → step s = .next { s with script := rest }) ∧
  (∀ (s : State) (a : Nat) (rest : List HostEvent), next s (.srcRead a) rest →
    step s = .next { s with script := rest, replies := .byte (srcRead s a) :: s.replies }) ∧
  (∀ (s : State) (a : Nat), s.cfg.srcCap ≤ a → srcRead s a = 0)

/-- R36: `PbRead` is gated by `PB_KIND` and `PB_SIZE`, and has no side effect. -/
def Obligations.BitmapReadsAreGated : Prop :=
  ∀ (s : State) (a : Nat) (rest : List HostEvent), s.Inv → next s (.pbRead a) rest →
    ∃ v : Byte, step s = .next { s with script := rest, replies := .byte v :: s.replies } ∧
      (s.pbKind ≠ .absent → a < s.pbSize.toNat → s.pb[a]? = some v) ∧
      (s.pbKind = .absent ∨ s.pbSize.toNat ≤ a → v = 0)

/-- R31: the state after reset, at power-up and after a reset event: every register 0, `PB` empty, every
byte of `SRC` a free value that stays until the host writes that byte or resets again. The model's choices
in it: the free value is `Config.src0` (log entry 5) at the number of resets so far (log entry 6, DESIGN
CHOICE), and a reset event keeps the parameters, the rest of the script and what the host has read (log
entry 12, DESIGN CHOICE). It holds whatever the free values are. -/
def Obligations.ResetValues : Prop :=
  (∀ (p : Config.Params) (a : Nat),
    (∀ i, regRead (State.resetWith p) i = 0) ∧ (State.resetWith p).pb = [] ∧
    pbRead (State.resetWith p) a = 0 ∧
    (a < p.srcCap → srcRead (State.resetWith p) a = Config.src0 0 a)) ∧
  (∀ (s : State) (rest : List HostEvent), s.script = .reset :: rest →
    ∃ t, step s = .next t ∧ (∀ i, regRead t i = 0) ∧ t.pb = [] ∧ (∀ a, pbRead t a = 0) ∧
      (∀ a, a < s.cfg.srcCap → srcRead t a = Config.src0 (s.srcEpoch + 1) a) ∧
      t.cfg = s.cfg ∧ t.script = rest ∧ t.replies = s.replies) ∧
  (∀ (s t : State) (a : Nat), step s = .next t → s.script.head? ≠ some .reset →
    (∀ v, s.script.head? ≠ some (.transaction (.srcWrite a v))) → srcRead t a = srcRead s a)

/-- R27: `newPB` and `dropPB`, for a bitmap whose size a register can hold (R53 (c)). -/
def Obligations.BitmapReplacedAtOnce : Prop :=
  ∀ (s : State) (kind : PbKind) (w h : Word) (stride : Nat) (bytes : List Byte),
    stride < 2 ^ 32 → stride * h.toNat < 2 ^ 32 →
    (∃ st size : Word, newPB kind w h stride bytes s =
      { s with pbKind := kind, pbWidth := w, pbHeight := h, pbStride := st, pbSize := size, pb := bytes } ∧
      st.toNat = stride ∧ size.toNat = stride * h.toNat) ∧
    dropPB s =
      { s with pbKind := .absent, pbWidth := 0, pbHeight := 0, pbStride := 0, pbSize := 0, pb := [] }

/-! ### Helper functions -/

/-- R42: the row stride is `ceil(w/8)`, and never wraps for a 32-bit width. -/
def Obligations.StrideIsCeiling : Prop :=
  (∀ w : Nat, stride1 w = (w + 7) / 8 ∧ stride1 w = (w >>> 3) + if w &&& 7 ≠ 0 then 1 else 0) ∧
  (∀ w : Word, stride1 w.toNat ≤ 0x20000000)

/-- R45: the tail mask is the OR of the bit masks of the valid pixels (R44), and its padding has the
source's count of bits. -/
def Obligations.TailMaskIsValidBits : Prop :=
  (∀ w : Nat, w % 8 = 0 → tailMask w = 0xFF) ∧
  (∀ w : Nat, w % 8 ≠ 0 → tailMask w = 0xFF#8 <<< (8 - w % 8) ∧
    tailMask w = (List.range (w % 8)).foldl (fun m b => m ||| bitMask b) 0) ∧
  (∀ w j : Nat, j < 8 → ((tailMask w).getLsbD j = false ↔ j < stride1 w * 8 - w))

/-! ### Errors -/

/-- R90: error entry, with the code `STATUS` then reads as. -/
def Obligations.ErrorEntry : Prop :=
  (∀ (e : ErrorKind) (s : State), raise e s = .next (erred e s)) ∧
  (∀ (e : ErrorKind) (s : State), (regRead (erred e s) 5).toNat =
    match e with
    | .unsupportedFormat => 1
    | .outOfMemory => 2
    | .invalidArgument => 3)

/-- R91: the dispatch of a `CMD` write, in the error state and outside it. -/
def Obligations.CommandDispatch : Prop :=
  ∀ (s : State) (w : Word) (rest : List HostEvent), next s (.regWrite 4 w) rest →
    (s.err ≠ none → w = 0x00000006 → step s = .next (cleared { s with script := rest })) ∧
    (s.err ≠ none → w ≠ 0x00000006 → step s = .next { s with script := rest }) ∧
    (s.err = none → ∀ r, decode w = .error r →
      step s = .next (erred .invalidArgument { s with script := rest })) ∧
    (s.err = none → ∀ i, decode w = .ok i → step s = exec i { s with script := rest })

/-- R92: the first error is kept until CLEAR or reset, whatever else the host does. -/
def Obligations.FirstErrorKept : Prop :=
  ∀ (s t : State) (e : ErrorKind), s.err = some e → step s = .next t →
    s.script.head? ≠ some .reset →
    s.script.head? ≠ some (.transaction (.regWrite 4 0x00000006)) → t.err = some e

/-- R85: only a `CMD` write can raise an error. -/
def Obligations.OnlyCommandsRaise : Prop :=
  ∀ s t : State, step s = .next t → s.err = none → t.err ≠ none →
    ∃ w, s.script.head? = some (.transaction (.regWrite 4 w))

/-- R16: what sets, clears and keeps the two fields of `STATUS`. `ERR` becomes non-zero only by a `CMD`
write outside the error state, and zero only by CLEAR and reset. `PB_KIND` becomes a kind only by PACK,
and `NONE` only by CLEAR, reset and an error entry. -/
def Obligations.StatusFieldsChange : Prop :=
  (∀ s t : State, step s = .next t → t.err ≠ s.err →
    (s.err = none ∧ ∃ w, s.script.head? = some (.transaction (.regWrite 4 w))) ∨
    (t.err = none ∧ (s.script.head? = some .reset ∨
      s.script.head? = some (.transaction (.regWrite 4 0x00000006))))) ∧
  (∀ s t : State, step s = .next t → t.pbKind ≠ s.pbKind →
    (t.pbKind ≠ .absent ∧ t.err = none ∧
      s.script.head? = some (.transaction (.regWrite 4 0x00000001))) ∨
    (t.pbKind = .absent ∧ (s.script.head? = some .reset ∨
      s.script.head? = some (.transaction (.regWrite 4 0x00000006)) ∨ s.err = none ∧ t.err ≠ none)))

/-- R94: a command that raises an error has, besides the error entry, no effect at all. -/
def Obligations.ErrorsArePrecise : Prop :=
  ∀ (i : Instr) (s t : State), exec i s = .next t → s.err = none → t.err ≠ none →
    ∃ e, t = erred e s

/-! ### Utility commands and CLEAR -/

/-- R81: STRIDE. -/
def Obligations.StrideResult : Prop :=
  decode 0x00000003 = .ok .stride ∧
  ∀ s : State, s.err = none →
    exec .stride s =
      .next { s with result0 := (s.arg >>> 3) + if s.arg &&& 7 ≠ 0 then 1 else 0 }

/-- R82: BITADDR. -/
def Obligations.BitaddrResult : Prop :=
  decode 0x00000004 = .ok .bitaddr ∧
  ∀ s : State, s.err = none →
    exec .bitaddr s =
      .next { s with
        result0 := s.arg >>> 3
        result1 := 0x80#32 >>> (s.arg &&& 7).toNat }

/-- R83: TAILMASK. -/
def Obligations.TailmaskResult : Prop :=
  decode 0x00000005 = .ok .tailmask ∧
  ∀ s : State, s.err = none →
    exec .tailmask s =
      .next { s with
        result0 := if s.arg &&& 7 = 0 then 0xFF
          else (0xFF#32 <<< (8 - (s.arg &&& 7).toNat)) &&& 0xFF }

/-- R84: CLEAR, in every state, the error state included. -/
def Obligations.ClearResult : Prop :=
  decode 0x00000006 = .ok .clear ∧ ∀ s : State, exec .clear s = .next (cleared s)

/-! ### PACK -/

/-- R64: which `FORMAT` words name a strategy, which strategy each names, that every other makes PACK
raise `UnsupportedFormat` before any other check, and the kind of bitmap each strategy makes. -/
def Obligations.FormatSelectsStrategy : Prop :=
  (∀ (p : Config.Params) (v : Word) (d l : Nat), d = v.toNat % 256 → l = v.toNat / 256 % 4 →
    (d = 1 → l = 0 → formatStrategy p v = some .mono) ∧
    (d = 8 → l = 1 → v.getLsbD 16 = false → formatStrategy p v = some (.classify 3)) ∧
    (d = 8 → l = 2 → v.getLsbD 16 = false → formatStrategy p v = some (.classify 4)) ∧
    (d = 8 → l = 1 → v.getLsbD 16 = true → formatStrategy p v = some (.rawCopy 3)) ∧
    (d = 8 → l = 2 → v.getLsbD 16 = true → formatStrategy p v = some (.rawCopy 4)) ∧
    (d = 16 → l ≤ 2 → formatStrategy p v = some (.rawCopy p.bpp16)) ∧
    (¬ (d = 1 ∧ l = 0) → ¬ (d = 8 ∧ (l = 1 ∨ l = 2)) → ¬ (d = 16 ∧ l ≤ 2) →
      formatStrategy p v = none)) ∧
  (∀ s : State, s.err = none → formatStrategy s.cfg s.format = none →
    exec .pack s = .next (erred .unsupportedFormat s)) ∧
  (∀ (s t : State) (strat : Strategy), s.err = none → formatStrategy s.cfg s.format = some strat →
    exec .pack s = .next t → t.err = none →
    t.pbKind =
      match strat with
      | .mono => .bits1
      | .classify _ => .bits1
      | .rawCopy _ => .raw)

/-- R65: a supported format with zero width or height. -/
def Obligations.PackRejectsZeroGeometry : Prop :=
  ∀ (s : State) (strat : Strategy), s.err = none → formatStrategy s.cfg s.format = some strat →
    s.width = 0 ∨ s.height = 0 → exec .pack s = .next (erred .invalidArgument s)

/-- R66: a frame that does not fit `SRC` or `PB`, by the strides of R63 written out, the products
exact. -/
def Obligations.PackRejectsTooLarge : Prop :=
  ∀ (s : State) (ss ds : Nat), s.err = none → s.strides ss ds → s.width ≠ 0 → s.height ≠ 0 →
    s.cfg.srcCap < ss * s.height.toNat ∨ s.cfg.pbCap < ds * s.height.toNat →
    exec .pack s = .next (erred .outOfMemory s)

/-- R67: PACK of a monochrome image: every byte inverted, the last of each row masked. -/
def Obligations.PackMonochrome : Prop :=
  ∀ s : State, s.cfg.wf → s.err = none → s.format &&& 0x3FF = 0x001 → s.packable .mono →
    ∃ (stride size : Word) (bytes : List Byte),
      exec .pack s = .next { s with
        pbKind := .bits1, pbWidth := s.width, pbHeight := s.height, pbStride := stride, pbSize := size,
        pb := bytes } ∧
      stride.toNat = (s.width.toNat + 7) / 8 ∧ size.toNat = stride.toNat * s.height.toNat ∧
      bytes.length = size.toNat ∧
      ∀ y < s.height.toNat, ∀ k < stride.toNat,
        bytes[y * stride.toNat + k]? =
          some (if k = stride.toNat - 1
            then ~~~srcRead s (y * stride.toNat + k) &&& tailMask s.width.toNat
            else ~~~srcRead s (y * stride.toNat + k))

/-- R68: PACK of an 8-bit RGB or RGBA image with `RAW = 0`: bit `7 - j` of byte `k` of row `y` is set
exactly when pixel `8k + j` exists and its first three bytes are 0. -/
def Obligations.PackClassification : Prop :=
  ∀ (s : State) (n : Nat), s.cfg.wf → s.err = none → s.format &&& 0x000100FF = 0x00000008 →
    (s.format &&& 0x300 = 0x100 ∧ n = 3 ∨ s.format &&& 0x300 = 0x200 ∧ n = 4) →
    s.packable (.classify n) →
    ∃ (stride size : Word) (bytes : List Byte),
      exec .pack s = .next { s with
        pbKind := .bits1, pbWidth := s.width, pbHeight := s.height, pbStride := stride, pbSize := size,
        pb := bytes } ∧
      stride.toNat = (s.width.toNat + 7) / 8 ∧ size.toNat = stride.toNat * s.height.toNat ∧
      bytes.length = size.toNat ∧
      ∀ y < s.height.toNat, ∀ k < stride.toNat, ∀ j < 8, ∃ b : Byte,
        bytes[y * stride.toNat + k]? = some b ∧
        (b.getLsbD (7 - j) = true ↔ 8 * k + j < s.width.toNat ∧
          ∀ c < 3, srcRead s (y * (s.width.toNat * n) + (8 * k + j) * n + c) = 0)

/-- R69: PACK with the raw strategy is a copy of the first `W * n * H` bytes of `SRC`. -/
def Obligations.PackRawCopy : Prop :=
  ∀ (s : State) (n : Nat), s.cfg.wf → s.err = none →
    (s.format &&& 0x000103FF = 0x00010108 ∧ n = 3 ∨ s.format &&& 0x000103FF = 0x00010208 ∧ n = 4 ∨
      s.format &&& 0xFF = 0x10 ∧ s.format &&& 0x300 ≠ 0x300 ∧ n = s.cfg.bpp16) →
    s.packable (.rawCopy n) →
    ∃ (stride size : Word) (bytes : List Byte),
      exec .pack s = .next { s with
        pbKind := .raw, pbWidth := s.width, pbHeight := s.height, pbStride := stride, pbSize := size,
        pb := bytes } ∧
      stride.toNat = s.width.toNat * n ∧ size.toNat = stride.toNat * s.height.toNat ∧
      bytes.length = size.toNat ∧ ∀ i < size.toNat, bytes[i]? = some (srcRead s i)

/-- R100: PACK succeeds exactly when format, geometry and capacity are right, by the strides of R63
written out; that every source byte was written is not checked. -/
def Obligations.PackSucceedsExactly : Prop :=
  ∀ s : State, s.err = none →
    ((∃ t, exec .pack s = .next t ∧ t.err = none) ↔
      ∃ ss ds : Nat, s.strides ss ds ∧ 1 ≤ s.width.toNat ∧ 1 ≤ s.height.toNat ∧
        ss * s.height.toNat ≤ s.cfg.srcCap ∧ ds * s.height.toNat ≤ s.cfg.pbCap)

/-- R70: the result of PACK depends only on the operand registers and the first `ss * H` bytes of
`SRC`. -/
def Obligations.PackDependsOnOperandsOnly : Prop :=
  ∀ (s s' t t' : State), s.cfg = s'.cfg → s.err = none → s'.err = none → s.width = s'.width →
    s.height = s'.height → s.format = s'.format →
    (∀ ss ds : Nat, s.strides ss ds → ∀ a < ss * s.height.toNat, srcRead s a = srcRead s' a) →
    exec .pack s = .next t → exec .pack s' = .next t' →
    t.bitmap = t'.bitmap ∧ t.pbSize = t'.pbSize ∧ t.err = t'.err

/-- R67 (c), T3: source bits beyond the width never reach a monochrome bitmap. -/
def Obligations.MonochromeIgnoresGarbageBits : Prop :=
  ∀ (s s' t t' : State), s.cfg = s'.cfg → s.err = none → s'.err = none → s.width = s'.width →
    s.height = s'.height → s.format = s'.format → s.packable .mono →
    (∀ y < s.height.toNat, ∀ x < s.width.toNat,
      (srcRead s (y * ((s.width.toNat + 7) / 8) + x / 8)).getLsbD (7 - x % 8) =
        (srcRead s' (y * ((s.width.toNat + 7) / 8) + x / 8)).getLsbD (7 - x % 8)) →
    exec .pack s = .next t → exec .pack s' = .next t' → t.bitmap = t'.bitmap

/-- R68 (a), T4: alpha never reaches a classified RGBA bitmap. -/
def Obligations.ClassificationIgnoresAlpha : Prop :=
  ∀ (s s' t t' : State), s.cfg = s'.cfg → s.err = none → s'.err = none → s.width = s'.width →
    s.height = s'.height → s.format = s'.format → s.packable (.classify 4) →
    (∀ a, a % 4 ≠ 3 → srcRead s a = srcRead s' a) →
    exec .pack s = .next t → exec .pack s' = .next t' → t.bitmap = t'.bitmap

/-- R67 (d), S6: all-light rows pack to zero bytes, all-dark rows to ones up to the width. -/
def Obligations.LightAndDarkRows : Prop :=
  ∀ (s t : State) (row y k : Nat), s.packable .mono → s.err = none → exec .pack s = .next t →
    row = (s.width.toNat + 7) / 8 → y < s.height.toNat → k < row →
    ((∀ x < s.width.toNat, (srcRead s (y * row + x / 8)).getLsbD (7 - x % 8) = true) →
      t.pb[y * row + k]? = some 0) ∧
    ((∀ x < s.width.toNat, (srcRead s (y * row + x / 8)).getLsbD (7 - x % 8) = false) →
      t.pb[y * row + k]? = some (if k + 1 = row then tailMask s.width.toNat else 0xFF))

/-! ### ROTATE -/

/-- R72: any angle but 0, 90, 180, 270 is rejected first, whatever the bitmap. -/
def Obligations.RotateRejectsBadAngle : Prop :=
  ∀ (s : State) (angle : Nat), s.err = none → angle ∉ [0, 90, 180, 270] →
    exec (.rotate angle) s = .next (erred .invalidArgument s)

/-- R73: a legal angle without a 1-bit bitmap. -/
def Obligations.RotateRejectsWrongKind : Prop :=
  ∀ (s : State) (angle : Nat), s.err = none → angle ∈ [0, 90, 180, 270] → s.pbKind ≠ .bits1 →
    exec (.rotate angle) s = .next (erred .unsupportedFormat s)

/-- R74: the destination does not fit; and in every state that meets the invariant 180 degrees fits. -/
def Obligations.RotateCapacity : Prop :=
  (∀ (s : State) (angle : Nat), s.err = none → s.pbKind = .bits1 → angle = 90 ∨ angle = 270 →
    s.cfg.pbCap < (s.pbHeight.toNat + 7) / 8 * s.pbWidth.toNat →
    exec (.rotate angle) s = .next (erred .outOfMemory s)) ∧
  (∀ s : State, s.err = none → s.pbKind = .bits1 →
    s.cfg.pbCap < (s.pbWidth.toNat + 7) / 8 * s.pbHeight.toNat →
    exec (.rotate 180) s = .next (erred .outOfMemory s)) ∧
  (∀ s t : State, s.Inv → s.err = none → s.pbKind = .bits1 →
    exec (.rotate 180) s = .next t → t.err = none)

/-- R75: angle 0 changes no state at all. -/
def Obligations.RotateZeroIsIdentity : Prop :=
  ∀ s : State, s.err = none → s.pbKind = .bits1 → exec (.rotate 0) s = .next s

/-- R76: the table, and that the mapping sends the pixels of the source one to one onto those of the
destination. -/
def Obligations.RotationMapIsBijection : Prop :=
  (∀ w h rx ry : Nat,
    Rotation.deg0.dest w h (rx, ry) = (rx, ry) ∧
    Rotation.deg90.dest w h (rx, ry) = (h - 1 - ry, rx) ∧
    Rotation.deg180.dest w h (rx, ry) = (w - 1 - rx, h - 1 - ry) ∧
    Rotation.deg270.dest w h (rx, ry) = (ry, w - 1 - rx)) ∧
  (Rotation.deg0.swaps = false ∧ Rotation.deg90.swaps = true ∧ Rotation.deg180.swaps = false ∧
    Rotation.deg270.swaps = true) ∧
  ∀ (r : Rotation) (w h w2 h2 : Nat), (w2, h2) = (if r.swaps then (h, w) else (w, h)) →
    (∀ p : Nat × Nat, p.1 < w → p.2 < h → (r.dest w h p).1 < w2 ∧ (r.dest w h p).2 < h2) ∧
    (∀ q : Nat × Nat, q.1 < w2 → q.2 < h2 →
      ∃ p : Nat × Nat, (p.1 < w ∧ p.2 < h ∧ r.dest w h p = q) ∧
        ∀ p' : Nat × Nat, p'.1 < w → p'.2 < h → r.dest w h p' = q → p' = p)

/-- R77, R78: ROTATE by 90 or 270 degrees: width and height swapped, every pixel where the table of R76
sends it, the padding zero, nothing else changed. A pixel is a bit of a byte (R46), by `pixelAt`. -/
def Obligations.RotateQuarterTurn : Prop :=
  ∀ (s : State) (angle : Nat), s.cfg.wf → s.err = none → s.pbKind = .bits1 →
    angle = 90 ∨ angle = 270 →
    (s.pbHeight.toNat + 7) / 8 * s.pbWidth.toNat ≤ s.cfg.pbCap →
    ∃ (stride size : Word) (bytes : List Byte),
      exec (.rotate angle) s = .next { s with
        pbWidth := s.pbHeight, pbHeight := s.pbWidth, pbStride := stride, pbSize := size, pb := bytes } ∧
      stride.toNat = (s.pbHeight.toNat + 7) / 8 ∧ size.toNat = stride.toNat * s.pbWidth.toNat ∧
      bytes.length = size.toNat ∧
      (∀ rx < s.pbWidth.toNat, ∀ ry < s.pbHeight.toNat,
        pixelAt s.pb s.pbStride.toNat rx ry =
          if angle = 90 then pixelAt bytes stride.toNat (s.pbHeight.toNat - 1 - ry) rx
          else pixelAt bytes stride.toNat ry (s.pbWidth.toNat - 1 - rx)) ∧
      (∀ wx wy : Nat, s.pbHeight.toNat ≤ wx → wx < 8 * stride.toNat → wy < s.pbWidth.toNat →
        pixelAt bytes stride.toNat wx wy = false)

/-- R77, R78: ROTATE by 180 degrees. -/
def Obligations.RotateHalfTurn : Prop :=
  ∀ s : State, s.Inv → s.err = none → s.pbKind = .bits1 →
    ∃ bytes : List Byte,
      exec (.rotate 180) s = .next { s with pb := bytes } ∧ bytes.length = s.pbSize.toNat ∧
      (∀ rx < s.pbWidth.toNat, ∀ ry < s.pbHeight.toNat,
        pixelAt s.pb s.pbStride.toNat rx ry =
          pixelAt bytes s.pbStride.toNat (s.pbWidth.toNat - 1 - rx) (s.pbHeight.toNat - 1 - ry)) ∧
      (∀ wx wy : Nat, s.pbWidth.toNat ≤ wx → wx < 8 * s.pbStride.toNat → wy < s.pbHeight.toNat →
        pixelAt bytes s.pbStride.toNat wx wy = false)

/-- R79 (c), (d): 90 then 270, 270 then 90, and 180 twice restore the bitmap byte for byte. -/
def Obligations.OppositeRotationsCancel : Prop :=
  ∀ (s t u : State) (a b : Nat), holdsBits1 s →
    (a, b) ∈ [(90, 270), (270, 90), (180, 180)] → rotates a s t → rotates b t u → u = s

/-- R79 (e): 90 four times restores the bitmap byte for byte. -/
def Obligations.FourQuarterTurnsCancel : Prop :=
  ∀ s t u v w : State, holdsBits1 s → rotates 90 s t → rotates 90 t u → rotates 90 u v →
    rotates 90 v w → w = s

/-- R79 (f): 90 twice is 180, and 90 then 180 is 270. -/
def Obligations.RotationsCompose : Prop :=
  (∀ s t u v : State, holdsBits1 s → rotates 90 s t → rotates 90 t u → rotates 180 s v → u = v) ∧
  (∀ s t u v : State, holdsBits1 s → rotates 90 s t → rotates 180 t u → rotates 270 s v → u = v)

/-- T10: a successful ROTATE keeps the number of dark pixels, counted as bits of bytes. -/
def Obligations.RotationKeepsDarkPixels : Prop :=
  ∀ (s t : State) (angle : Nat), holdsBits1 s → rotates angle s t → darkPixels t = darkPixels s

/-! ### Frames -/

/-- What no command changes, and what each leaves alone besides (R21, R22, R24, R63, R71, R80, R84,
R106). -/
def Obligations.CommandFrame : Prop :=
  ∀ (i : Instr) (s t : State), exec i s = .next t →
    (t.width = s.width ∧ t.height = s.height ∧ t.format = s.format ∧ t.arg = s.arg ∧ t.cfg = s.cfg ∧
      t.srcEpoch = s.srcEpoch ∧ t.script = s.script ∧ t.replies = s.replies) ∧
    (∀ a, srcRead t a = srcRead s a) ∧
    (i = .pack ∨ i = .clear ∨ (∃ angle, i = .rotate angle) →
      t.result0 = s.result0 ∧ t.result1 = s.result1) ∧
    (i = .stride ∨ i = .bitaddr ∨ i = .tailmask →
      t.err = s.err ∧ t.bitmap = s.bitmap ∧ t.pbSize = s.pbSize ∧ ∀ a, pbRead t a = pbRead s a) ∧
    (i = .stride ∨ i = .tailmask → t.result1 = s.result1)

/-- R106, T6: nothing but `SrcWrite` and reset changes `SRC`. -/
def Obligations.OnlySrcWriteChangesSource : Prop :=
  ∀ s t : State, step s = .next t → s.script.head? ≠ some .reset →
    (∀ a v, s.script.head? ≠ some (.transaction (.srcWrite a v))) →
    t.src = s.src ∧ ∀ a, srcRead t a = srcRead s a

/-- R30, R105: what the host writes to the operand registers or to `SRC` changes neither the bitmap nor
what a later ROTATE makes of it. -/
def Obligations.OperandWritesLeaveBitmap : Prop :=
  ∀ (s t : State) (tr : Transaction) (rest : List HostEvent) (angle : Nat), next s tr rest →
    (∃ i v, tr = .regWrite i v ∧ i ≤ 3) ∨ (∃ a v, tr = .srcWrite a v) → step s = .next t →
    t.bitmap = s.bitmap ∧ t.pbSize = s.pbSize ∧ t.err = s.err ∧
    ∀ u u', exec (.rotate angle) s = .next u → exec (.rotate angle) t = .next u' →
      u'.bitmap = u.bitmap ∧ u'.pbSize = u.pbSize ∧ u'.err = u.err

/-- R101: the order of the host's writes is free: two writes to different places commute, as data. -/
def Obligations.HostWritesCommute : Prop :=
  ∀ (s : State), Memory.wf s.src = true →
    (∀ (a b : Nat) (u v : Byte), a ≠ b →
      srcWrite a u (srcWrite b v s) = srcWrite b v (srcWrite a u s)) ∧
    (∀ (r r' : RegName) (v v' : Word), r ≠ r' →
      storeReg r v (storeReg r' v' s) = storeReg r' v' (storeReg r v s)) ∧
    (∀ (a : Nat) (u : Byte) (r : RegName) (v : Word),
      srcWrite a u (storeReg r v s) = storeReg r v (srcWrite a u s))

/-! ### Invariants and whole-machine claims -/

/-- The machine's invariant (R12, R16 to R20, R22, R24 to R26) is kept by every step from every state
that meets it. -/
def Obligations.StepKeepsInvariant : Prop :=
  ∀ s t : State, s.Inv → step s = .next t → t.Inv

/-- The state after reset meets the invariant, whatever the parameters (R31). -/
def Obligations.ResetMeetsInvariant : Prop :=
  (∀ p : Config.Params, p.wf → (State.resetWith p).Inv) ∧ State.reset.Inv

/-- T1, T7, T9, R26: what the spec says of every reachable state. -/
def Obligations.ReachableStates : Prop :=
  ∀ s : State, Reachable s →
    (s.pbKind = .bits1 → s.pbStride.toNat = (s.pbWidth.toNat + 7) / 8 ∧
      ∀ y < s.pbHeight.toNat, ∃ b : Byte,
        s.pb[y * s.pbStride.toNat + s.pbStride.toNat - 1]? = some b ∧
        b &&& ~~~tailMask s.pbWidth.toNat = 0) ∧
    (s.err ≠ none → s.pbKind = .absent ∧ s.pbWidth = 0 ∧ s.pbHeight = 0 ∧ s.pbStride = 0 ∧ s.pbSize = 0) ∧
    (s.pbSize.toNat = s.pbStride.toNat * s.pbHeight.toNat ∧ s.pbSize.toNat ≤ s.cfg.pbCap) ∧
    (s.pbKind ≠ .absent → 1 ≤ s.pbWidth.toNat ∧ 1 ≤ s.pbHeight.toNat) ∧
    s.pb.length = s.pbSize.toNat

/-- R102, R103: the writer reads exactly the bytes of the bitmap when there is a result, and none
otherwise. -/
def Obligations.WriterReadsTheBitmap : Prop :=
  ∀ s : State, s.Inv → s.writerOutput = s.pb ∧ (¬ s.holdsResult → s.writerOutput = [])

/-- R29: there is no hidden state. Two states the host cannot tell apart answer the same event alike
and stay indistinguishable. The reset case is the model's choice (log entry 6, DESIGN CHOICE): R98 gives a
fresh arbitrary `SRC0`, the model draws it by the number of resets, so equal numbers are assumed. -/
def Obligations.NoHiddenState : Prop :=
  ∀ (e : HostEvent) (s s' t t' : State), s.Inv → s'.Inv → visiblyEqual s s' →
    s.srcEpoch = s'.srcEpoch → s.replies = s'.replies →
    hostEvent e s = .next t → hostEvent e s' = .next t' →
    visiblyEqual t t' ∧ t.replies = t'.replies

/-- R110: how a run ends, by its last state. -/
def Obligations.EndOfRun : Prop :=
  ∀ s : State,
    (s.err = none ∧ s.pbKind ≠ .absent ↔
      s.runEnd = .result ⟨s.pbKind, s.pbWidth, s.pbHeight, s.pbStride, s.pb⟩) ∧
    (∀ e, s.err = some e ↔ s.runEnd = .failed e) ∧
    (s.err = none ∧ s.pbKind = .absent ↔ s.runEnd = .empty)

/-- R60, R61: the transactions every form of script statement stands for, and that a script runs top to
bottom. The model's choice (log entry 14, DESIGN CHOICE): statements are abstract syntax, and `dump`
takes its number of bytes from the list of those it expects. -/
def Obligations.ScriptExpansion : Prop :=
  (∀ p ∈ [(RegName.width, 0), (.height, 1), (.format, 2), (.arg, 3), (.cmd, 4), (.status, 5),
      (.pbWidth, 6), (.pbHeight, 7), (.pbStride, 8), (.pbSize, 9), (.result0, 10), (.result1, 11)],
    (∀ v, (Stmt.wr p.1 v).expand = [.regWrite p.2 v]) ∧
    (∀ want, (Stmt.rd p.1 want).expand = [.regRead p.2])) ∧
  (∀ a v, (Stmt.sw a v).expand = [.srcWrite a v]) ∧
  (∀ a want, (Stmt.sr a want).expand = [.srcRead a]) ∧
  (∀ a want, (Stmt.pr a want).expand = [.pbRead a]) ∧
  (∀ i : Instr, (Stmt.cmd i).expand = [.regWrite 4
    (match i with
     | .pack => 0x00000001
     | .rotate deg => (BitVec.ofNat 32 deg <<< 16) ||| 0x00000002
     | .stride => 0x00000003
     | .bitaddr => 0x00000004
     | .tailmask => 0x00000005
     | .clear => 0x00000006)]) ∧
  (∀ w, (Stmt.cmdWord w).expand = [.regWrite 4 w]) ∧
  (∀ r : Rotation, (Stmt.rot r).expand = [.regWrite 4
    (match r with
     | .deg0 => 0x00000002
     | .deg90 => 0x005A0002
     | .deg180 => 0x00B40002
     | .deg270 => 0x010E0002)]) ∧
  (∀ (depth : Nat) (layout : Layout) (raw : Bool), (Stmt.setfmt depth layout raw).expand = [.regWrite 2
    (BitVec.ofNat 32 depth |||
      ((match layout with
        | .mono => 0#32
        | .rgb => 1#32
        | .rgba => 2#32 : Word) <<< 8) |||
      ((if raw then 1#32 else 0#32) <<< 16))]) ∧
  (∀ w h, (Stmt.setdim w h).expand = [.regWrite 0 w, .regWrite 1 h]) ∧
  (∀ (a : Nat) (bytes : List Byte) (k : Nat),
    (Stmt.fill a bytes).expand[k]? = bytes[k]?.map fun b => .srcWrite (a + k) b) ∧
  (∀ (bytes : List Byte) (k : Nat),
    (Stmt.dump bytes).expand[k]? = if k < bytes.length then some (.pbRead k) else none) ∧
  (∀ w, (Stmt.stride1 w).expand = [.regWrite 3 w, .regWrite 4 0x00000003, .regRead 10]) ∧
  (∀ b, (Stmt.bitaddr b).expand =
    [.regWrite 3 b, .regWrite 4 0x00000004, .regRead 10, .regRead 11]) ∧
  (∀ w, (Stmt.tailmask w).expand = [.regWrite 3 w, .regWrite 4 0x00000005, .regRead 10]) ∧
  (scriptEvents [] = []) ∧
  (∀ (st : Stmt) (rest : List Stmt),
    scriptEvents (st :: rest) = st.expand.map .transaction ++ scriptEvents rest)
end

