-- ==== Sys2Proof/Laws/Bits.lean ====
section
/-! SUPPORT. The laws of the bit helpers: the row stride, the masks as single bits, and reading a bit
after bits have been set or cleared, one at a time and over a whole list of positions. -/

namespace Sys2Proof.Machine

/-! ### Row stride -/

theorem stride1_eq (w : Nat) : stride1 w = (w + 7) / 8 := by
  unfold stride1; split <;> omega

theorem le_stride1 (w : Nat) : w ≤ 8 * stride1 w := by
  rw [stride1_eq]; omega

theorem stride1_lt (w : Nat) : 8 * stride1 w < w + 8 := by
  rw [stride1_eq]; omega

theorem bytePos_lt_stride1 {x w : Nat} (h : x < w) : bytePos x < stride1 w := by
  rw [stride1_eq, bytePos]; omega

theorem stride1_toNat_lt (w : Word) : stride1 w.toNat < 2 ^ 32 := by
  have := w.isLt; rw [stride1_eq]; omega

/-! ### Masks -/

/-- The mask of a pixel is one bit (R44). -/
theorem bitMask_getLsbD (b j : Nat) : (bitMask b).getLsbD j = decide (j = 7 - b % 8) := by
  have key : ∀ r : Fin 8, ∀ j : Fin 8,
      (0x80#8 >>> r.val).getLsbD j.val = decide (j.val = 7 - r.val) := by decide
  unfold bitMask
  by_cases hj : j < 8
  · exact key ⟨b % 8, Nat.mod_lt _ (by decide)⟩ ⟨j, hj⟩
  · rw [BitVec.getLsbD_of_ge _ _ (by omega)]
    simp; omega

/-- The tail mask is set at the valid pixels (R45). -/
theorem tailMask_getLsbD (w j : Nat) (hj : j < 8) :
    (tailMask w).getLsbD j = decide (stride1 w * 8 - w ≤ j) := by
  have key : ∀ r : Fin 8, ∀ j : Fin 8, r.val ≠ 0 →
      (0xFF#8 <<< (8 - r.val)).getLsbD j.val = decide (8 - r.val ≤ j.val) := by decide
  have full : ∀ j : Fin 8, (0xFF#8).getLsbD j.val = true := by decide
  unfold tailMask
  split
  · next h =>
    rw [full ⟨j, hj⟩, stride1_eq]
    simp only [Bool.true_eq, decide_eq_true_eq]; omega
  · next h =>
    rw [key ⟨w % 8, Nat.mod_lt _ (by decide)⟩ ⟨j, hj⟩ h]
    rw [stride1_eq]
    show decide (8 - w % 8 ≤ j) = decide ((w + 7) / 8 * 8 - w ≤ j)
    have : 8 - w % 8 = (w + 7) / 8 * 8 - w := by omega
    rw [this]

/-- A byte has nothing outside the tail mask exactly when its padding bits are zero. -/
theorem and_not_tailMask_eq_zero (w : Nat) (b : Byte) :
    b &&& ~~~tailMask w = 0 ↔ ∀ j < stride1 w * 8 - w, b.getLsbD j = false := by
  have hs := stride1_lt w
  constructor
  · intro h j hj
    have hj8 : j < 8 := by omega
    have hbit : (b &&& ~~~tailMask w).getLsbD j = false := by rw [h]; simp
    rw [BitVec.getLsbD_and, BitVec.getLsbD_not, tailMask_getLsbD w j hj8] at hbit
    simpa [hj8, Nat.not_le.mpr hj] using hbit
  · intro h
    apply BitVec.eq_of_getLsbD_eq
    intro j hj
    by_cases hp : j < stride1 w * 8 - w
    · simp [h j hp]
    · simp [tailMask_getLsbD w j hj, hj, Nat.not_lt.mp hp]

/-- A pixel is its bit of its byte (R46, R8). -/
theorem getBit_eq (A : List Byte) (stride x y : Nat) :
    getBit A stride x y = ((A[bitOffset stride x y]?).getD 0).getLsbD (7 - x % 8) := by
  unfold getBit
  generalize (A[bitOffset stride x y]?).getD 0 = b
  rw [Bool.eq_iff_iff, decide_eq_true_eq]
  constructor
  · intro h
    by_contra hb
    apply h
    apply BitVec.eq_of_getLsbD_eq
    intro j hj
    by_cases hjx : j = 7 - x % 8
    · subst hjx; simp [Bool.eq_false_iff.mpr hb]
    · simp [bitMask_getLsbD, hjx]
  · intro h h0
    have := congrArg (fun v => v.getLsbD (7 - x % 8)) h0
    simp [bitMask_getLsbD, h] at this

/-! ### Setting and clearing bits -/

@[simp] theorem length_setBit (A : List Byte) (stride x y : Nat) :
    (setBit A stride x y).length = A.length := by simp [setBit]

@[simp] theorem length_clearBit (A : List Byte) (stride x y : Nat) :
    (clearBit A stride x y).length = A.length := by simp [clearBit]

@[simp] theorem length_putBit (A : List Byte) (stride : Nat) (p : Nat × Nat) (v : Bool) :
    (putBit A stride p v).length = A.length := by unfold putBit; split <;> simp

/-- Positions inside the rows of an array have their own byte and bit. -/
theorem bitOffset_inj {stride x y x' y' : Nat} (hx : x < 8 * stride) (hx' : x' < 8 * stride)
    (h : bitOffset stride x y = bitOffset stride x' y') : y = y' ∧ x / 8 = x' / 8 := by
  unfold bitOffset bytePos at h
  have h1 : x / 8 < stride := by omega
  have h2 : x' / 8 < stride := by omega
  have hy : y = y' := by
    have e1 : (y * stride + x / 8) / stride = y := by
      rw [Nat.mul_comm, Nat.mul_add_div (by omega), Nat.div_eq_of_lt h1]; omega
    have e2 : (y' * stride + x' / 8) / stride = y' := by
      rw [Nat.mul_comm, Nat.mul_add_div (by omega), Nat.div_eq_of_lt h2]; omega
    rw [← e1, ← e2, h]
  subst hy
  exact ⟨rfl, by omega⟩

/-- The offset of a position lies in an array of whole rows. -/
theorem bitOffset_lt {stride h x y : Nat} (hx : x < 8 * stride) (hy : y < h) :
    bitOffset stride x y < stride * h := by
  unfold bitOffset bytePos
  have h1 : x / 8 < stride := by omega
  calc y * stride + x / 8 < y * stride + stride := by omega
    _ = stride * (y + 1) := by ring
    _ ≤ stride * h := Nat.mul_le_mul_left _ hy

/-- Reading a bit after one bit was put: that bit, or the old one. -/
theorem getBit_putBit (A : List Byte) (stride : Nat) (p : Nat × Nat) (v : Bool) (x y : Nat)
    (hp : p.1 < 8 * stride) (hx : x < 8 * stride) (hlt : bitOffset stride p.1 p.2 < A.length) :
    getBit (putBit A stride p v) stride x y =
      if (x, y) = p then v else getBit A stride x y := by
  obtain ⟨px, py⟩ := p
  simp only at hp hlt
  rw [getBit_eq, getBit_eq]
  by_cases hoff : bitOffset stride px py = bitOffset stride x y
  · obtain ⟨rfl, hbyte⟩ := bitOffset_inj hp hx hoff
    rw [← hoff]
    have hget : (A[bitOffset stride px py]?) = some A[bitOffset stride px py] := by simp [hlt]
    by_cases hpx : x = px
    · subst hpx
      cases v <;> simp [putBit, setBit, clearBit, hget, bitMask_getLsbD]
    · have hne : (7 - x % 8) ≠ 7 - px % 8 := by omega
      have hpair : ¬ (x, py) = (px, py) := by simp [hpx]
      rw [if_neg hpair]
      cases v <;> simp [putBit, setBit, clearBit, hget, bitMask_getLsbD, hne]
      intro _; omega
  · have hpair : ¬ (x, y) = (px, py) := by
      intro h; cases h; exact hoff rfl
    rw [if_neg hpair]
    cases v <;> simp [putBit, setBit, clearBit, hoff]

/-- Reading a bit after one bit was set. -/
theorem getBit_setBit (A : List Byte) (stride px py x y : Nat)
    (hp : px < 8 * stride) (hx : x < 8 * stride) (hlt : bitOffset stride px py < A.length) :
    getBit (setBit A stride px py) stride x y =
      if (x, y) = (px, py) then true else getBit A stride x y :=
  getBit_putBit A stride (px, py) true x y hp hx hlt

theorem getBit_replicate_zero (n stride x y : Nat) :
    getBit (List.replicate n 0) stride x y = false := by
  rw [getBit_eq, List.getElem?_replicate]
  split <;> simp

/-! ### Pixel positions -/

theorem mem_pixels {w h : Nat} {p : Nat × Nat} : p ∈ pixels w h ↔ p.1 < w ∧ p.2 < h := by
  obtain ⟨x, y⟩ := p
  simp [pixels]
  tauto

theorem nodup_pixels (w h : Nat) : (pixels w h).Nodup := by
  unfold pixels
  rw [List.nodup_flatMap]
  refine ⟨fun y _ => List.Nodup.map (fun a b hab => by simpa using hab) List.nodup_range, ?_⟩
  refine List.Pairwise.imp ?_ List.nodup_range
  intro a b hab
  simp only [Function.onFun, List.disjoint_left, List.mem_map, not_exists, not_and]
  rintro p ⟨x, _, rfl⟩ x' _ h
  exact hab (by simpa using (congrArg Prod.snd h).symm)

/-! ### Putting a whole list of bits -/

theorem length_foldl_putBit (l : List (Nat × Nat)) (stride : Nat) (f : Nat × Nat → Nat × Nat)
    (g : Nat × Nat → Bool) (A : List Byte) :
    (l.foldl (fun D p => putBit D stride (f p) (g p)) A).length = A.length := by
  induction l generalizing A with
  | nil => rfl
  | cons p l ih => simp [ih]

/-- Where no position of the list goes, the bit is the old one. -/
theorem getBit_foldl_putBit_other (l : List (Nat × Nat)) (stride : Nat) (f : Nat × Nat → Nat × Nat)
    (g : Nat × Nat → Bool) (A : List Byte) (x y : Nat) (hx : x < 8 * stride)
    (hf : ∀ p ∈ l, (f p).1 < 8 * stride ∧ bitOffset stride (f p).1 (f p).2 < A.length)
    (hne : ∀ p ∈ l, f p ≠ (x, y)) :
    getBit (l.foldl (fun D p => putBit D stride (f p) (g p)) A) stride x y = getBit A stride x y := by
  induction l generalizing A with
  | nil => rfl
  | cons p l ih =>
    rw [List.foldl_cons, ih]
    · have hp := hf p (by simp)
      rw [getBit_putBit _ _ _ _ _ _ hp.1 hx hp.2, if_neg (Ne.symm (hne p (by simp)))]
    · intro q hq; simpa using hf q (by simp [hq])
    · intro q hq; exact hne q (by simp [hq])

/-- Where one position of the list goes, and no other does, the bit is that position's. -/
theorem getBit_foldl_putBit_mem (l : List (Nat × Nat)) (stride : Nat) (f : Nat × Nat → Nat × Nat)
    (g : Nat × Nat → Bool) (A : List Byte) (q : Nat × Nat) (hq : q ∈ l) (hl : l.Nodup)
    (hf : ∀ p ∈ l, (f p).1 < 8 * stride ∧ bitOffset stride (f p).1 (f p).2 < A.length)
    (hinj : ∀ p ∈ l, f p = f q → p = q) :
    getBit (l.foldl (fun D p => putBit D stride (f p) (g p)) A) stride (f q).1 (f q).2 = g q := by
  induction l generalizing A with
  | nil => cases hq
  | cons p l ih =>
    rw [List.nodup_cons] at hl
    have hp := hf p (by simp)
    have hfq := hf q hq
    rw [List.foldl_cons]
    by_cases hpq : p = q
    · subst hpq
      rw [getBit_foldl_putBit_other _ _ _ _ _ _ _ hfq.1 (by intro r hr; simpa using hf r (by simp [hr])),
        getBit_putBit _ _ _ _ _ _ hp.1 hfq.1 hp.2, if_pos rfl]
      intro r hr h
      exact hl.1 (hinj r (by simp [hr]) h ▸ hr)
    · refine ih _ ?_ hl.2 ?_ fun r hr => hinj r (by simp [hr])
      · rcases List.mem_cons.mp hq with h | h
        · exact absurd h.symm hpq
        · exact h
      · intro r hr; simpa using hf r (by simp [hr])

/-! ### Whole arrays -/

/-- Two arrays of whole rows with the same bits are the same. -/
theorem bytes_ext (A B : List Byte) (stride h : Nat) (hA : A.length = stride * h)
    (hB : B.length = stride * h)
    (hbits : ∀ x < 8 * stride, ∀ y < h, getBit A stride x y = getBit B stride x y) : A = B := by
  apply List.ext_getElem (by omega)
  intro i h1 h2
  have hs : 0 < stride := by
    rcases Nat.eq_zero_or_pos stride with h0 | h0
    · rw [h0, Nat.zero_mul] at hA; omega
    · exact h0
  have hrow : i / stride < h := by
    rw [Nat.div_lt_iff_lt_mul hs, Nat.mul_comm]; omega
  have hcol : i % stride < stride := Nat.mod_lt _ hs
  have hoff : ∀ j < 8, bitOffset stride (8 * (i % stride) + j) (i / stride) = i := by
    intro j hj
    unfold bitOffset bytePos
    have : (8 * (i % stride) + j) / 8 = i % stride := by omega
    rw [this, Nat.mul_comm]; exact Nat.div_add_mod i stride
  apply BitVec.eq_of_getLsbD_eq
  intro j hj
  have := hbits (8 * (i % stride) + (7 - j)) (by omega) (i / stride) hrow
  rw [getBit_eq, getBit_eq, hoff (7 - j) (by omega)] at this
  have e : 7 - (8 * (i % stride) + (7 - j)) % 8 = j := by omega
  rw [e] at this
  simpa [h1, h2] using this

end Sys2Proof.Machine
end

