-- ==== Sys2Proof/Laws/Decode.lean ====
section
/-! SUPPORT. The fields of a command word as numbers, and those of an encoded command. -/

namespace Sys2Proof

theorem opcField_toNat (w : Word) : (opcField w).toNat = w.toNat % 256 := by
  simp [opcField]

theorem rsvField_toNat (w : Word) : (rsvField w).toNat = w.toNat / 256 % 256 := by
  simp [rsvField, Nat.shiftRight_eq_div_pow]

theorem imm16Field_toNat (w : Word) : (imm16Field w).toNat = w.toNat / 65536 := by
  have := w.isLt
  simp [imm16Field, Nat.shiftRight_eq_div_pow]; omega

/-- The word of ROTATE as a number: `(deg << 16) | 0x02` (R60). -/
theorem encode_rotate_toNat (angle : Nat) (h : angle < 2 ^ 16) :
    (encode (.rotate angle)).toNat = angle * 65536 + 2 := by
  have e : encode (.rotate angle) = BitVec.ofNat 32 (angle * 65536 + 2) := by
    apply BitVec.eq_of_toNat_eq
    simp only [encode, opcodeRow, BitVec.toNat_or, BitVec.toNat_shiftLeft, BitVec.toNat_ofNat]
    rw [Nat.shiftLeft_eq, Nat.mod_eq_of_lt (show angle < 2 ^ 32 by omega),
      Nat.mod_eq_of_lt (show angle * 2 ^ 16 < 2 ^ 32 by omega),
      Nat.mod_eq_of_lt (show angle * 65536 + 2 < 2 ^ 32 by omega)]
    have := Nat.shiftLeft_add_eq_or_of_lt (show (2 : Nat) < 2 ^ 16 by decide) angle
    rw [Nat.shiftLeft_eq] at this
    exact this.symm
  rw [e, BitVec.toNat_ofNat]; omega

/-- A 32-bit table word is the word itself. -/
theorem tableWord_toNat (w : Word) : tableWord 32 w.toNat = w := by
  apply BitVec.eq_of_toNat_eq
  have := w.isLt
  simp only [tableWord, BitVec.toNat_ofNat]; omega

end Sys2Proof
end

