-- ==== Sys2Proof/Laws/Memory.lean ====
section
/-! SUPPORT. The laws of the memory behind `SRC`: reading what was written, leaving the rest alone, and
keeping the canonical form. -/

namespace Sys2Proof.Machine

@[simp] theorem read?_nil (a : Nat) : Memory.read? [] a = none := rfl

theorem read?_cons (b : Nat) (v : Byte) (m : Memory) (a : Nat) :
    Memory.read? ((b, v) :: m) a = if a = b then some v else Memory.read? m a := rfl

theorem read?_write_self (m : Memory) (a : Nat) (v : Byte) :
    Memory.read? (Memory.write m a v) a = some v := by
  induction m with
  | nil => simp [Memory.write, read?_cons]
  | cons c m ih =>
    obtain ⟨b, u⟩ := c
    unfold Memory.write
    split
    · simp [read?_cons]
    · split
      · simp [read?_cons]
      · next h => simp [read?_cons, h, ih]

theorem read?_write_other (m : Memory) (a b : Nat) (v : Byte) (h : b ≠ a) :
    Memory.read? (Memory.write m a v) b = Memory.read? m b := by
  induction m with
  | nil => simp [Memory.write, read?_cons, h]
  | cons c m ih =>
    obtain ⟨k, u⟩ := c
    unfold Memory.write
    split
    · simp [read?_cons, h]
    · split
      · next hk => subst hk; simp [read?_cons, h]
      · simp only [read?_cons, ih]

theorem write_below (cap : Nat) (m : Memory) (a : Nat) (v : Byte) (hm : Memory.below cap m = true)
    (ha : a < cap) : Memory.below cap (Memory.write m a v) = true := by
  induction m with
  | nil => simpa [Memory.write, Memory.below] using ha
  | cons c m ih =>
    obtain ⟨b, u⟩ := c
    simp only [Memory.below, List.all_cons, Bool.and_eq_true, decide_eq_true_eq] at hm ih ⊢
    unfold Memory.write
    split
    · simp [ha, hm.1, hm.2]
    · split
      · simp [ha, hm.2]
      · simpa [hm.1] using ih hm.2

theorem risesFrom_write (m : Memory) (lo a : Nat) (v : Byte) (hm : Memory.risesFrom lo m = true)
    (ha : lo ≤ a) : Memory.risesFrom lo (Memory.write m a v) = true := by
  induction m generalizing lo with
  | nil => simpa [Memory.write, Memory.risesFrom] using ha
  | cons c m ih =>
    obtain ⟨b, u⟩ := c
    simp only [Memory.risesFrom, Bool.and_eq_true, decide_eq_true_eq] at hm
    unfold Memory.write
    split
    · next h => simp [Memory.risesFrom, ha, hm.2]; omega
    · split
      · next h => subst h; simp [Memory.risesFrom, hm.1, hm.2]
      · simp only [Memory.risesFrom, Bool.and_eq_true, decide_eq_true_eq]
        exact ⟨hm.1, ih _ hm.2 (by omega)⟩

/-- Every write keeps the canonical form. -/
theorem write_wf (m : Memory) (a : Nat) (v : Byte) (hm : Memory.wf m = true) :
    Memory.wf (Memory.write m a v) = true :=
  risesFrom_write m 0 a v hm (Nat.zero_le a)

/-- The canonical form of the empty memory. -/
@[simp] theorem wf_nil : Memory.wf [] = true := rfl

/-- Below its first offset a rising memory holds nothing. -/
theorem read?_below_rise (m : Memory) (lo a : Nat) (hm : Memory.risesFrom lo m = true) (h : a < lo) :
    Memory.read? m a = none := by
  induction m generalizing lo with
  | nil => rfl
  | cons c m ih =>
    obtain ⟨b, u⟩ := c
    simp only [Memory.risesFrom, Bool.and_eq_true, decide_eq_true_eq] at hm
    rw [read?_cons, if_neg (by omega)]
    exact ih _ hm.2 (by omega)

/-- Two memories in canonical form that hold the same bytes are the same list. -/
theorem rises_ext (m m' : Memory) (lo lo' : Nat) (hm : Memory.risesFrom lo m = true)
    (hm' : Memory.risesFrom lo' m' = true) (h : ∀ a, Memory.read? m a = Memory.read? m' a) : m = m' := by
  induction m generalizing lo lo' m' with
  | nil =>
    cases m' with
    | nil => rfl
    | cons c m' =>
      obtain ⟨b, u⟩ := c
      simpa [read?_cons] using h b
  | cons c m ih =>
    obtain ⟨b, u⟩ := c
    cases m' with
    | nil => simpa [read?_cons] using h b
    | cons c' m' =>
      obtain ⟨b', u'⟩ := c'
      simp only [Memory.risesFrom, Bool.and_eq_true, decide_eq_true_eq] at hm hm'
      have hb : b = b' := by
        by_contra hne
        rcases Nat.lt_or_gt_of_ne hne with hlt | hgt
        · have := h b
          rw [read?_cons, if_pos rfl, read?_cons, if_neg hne,
            read?_below_rise m' (b' + 1) b hm'.2 (by omega)] at this
          exact absurd this (by simp)
        · have := h b'
          rw [read?_cons, if_neg (Ne.symm hne), read?_cons, if_pos rfl,
            read?_below_rise m (b + 1) b' hm.2 (by omega)] at this
          exact absurd this (by simp)
      subst hb
      have hu : u = u' := by simpa [read?_cons] using h b
      subst hu
      congr 1
      refine ih m' (b + 1) (b + 1) hm.2 hm'.2 fun a => ?_
      by_cases hab : a = b
      · subst hab
        rw [read?_below_rise m (a + 1) a hm.2 (by omega), read?_below_rise m' (a + 1) a hm'.2 (by omega)]
      · simpa [read?_cons, hab] using h a

theorem wf_ext (m m' : Memory) (hm : Memory.wf m = true) (hm' : Memory.wf m' = true)
    (h : ∀ a, Memory.read? m a = Memory.read? m' a) : m = m' :=
  rises_ext m m' 0 0 hm hm' h

end Sys2Proof.Machine
end

