-- ==== Sys2Proof/Laws/State.lean ====
section
/-! SUPPORT. One lemma per field per update of the state, so that no proof unfolds a record update. -/

namespace Sys2Proof.Machine


/-! ### dropPB -/

@[simp] theorem dropPB_cfg (s : State) :
    (dropPB s).cfg = s.cfg := rfl

@[simp] theorem dropPB_width (s : State) :
    (dropPB s).width = s.width := rfl

@[simp] theorem dropPB_height (s : State) :
    (dropPB s).height = s.height := rfl

@[simp] theorem dropPB_format (s : State) :
    (dropPB s).format = s.format := rfl

@[simp] theorem dropPB_arg (s : State) :
    (dropPB s).arg = s.arg := rfl

@[simp] theorem dropPB_err (s : State) :
    (dropPB s).err = s.err := rfl

@[simp] theorem dropPB_pbKind (s : State) :
    (dropPB s).pbKind = .absent := rfl

@[simp] theorem dropPB_pbWidth (s : State) :
    (dropPB s).pbWidth = 0 := rfl

@[simp] theorem dropPB_pbHeight (s : State) :
    (dropPB s).pbHeight = 0 := rfl

@[simp] theorem dropPB_pbStride (s : State) :
    (dropPB s).pbStride = 0 := rfl

@[simp] theorem dropPB_pbSize (s : State) :
    (dropPB s).pbSize = 0 := rfl

@[simp] theorem dropPB_result0 (s : State) :
    (dropPB s).result0 = s.result0 := rfl

@[simp] theorem dropPB_result1 (s : State) :
    (dropPB s).result1 = s.result1 := rfl

@[simp] theorem dropPB_src (s : State) :
    (dropPB s).src = s.src := rfl

@[simp] theorem dropPB_srcEpoch (s : State) :
    (dropPB s).srcEpoch = s.srcEpoch := rfl

@[simp] theorem dropPB_pb (s : State) :
    (dropPB s).pb = [] := rfl

@[simp] theorem dropPB_script (s : State) :
    (dropPB s).script = s.script := rfl

@[simp] theorem dropPB_replies (s : State) :
    (dropPB s).replies = s.replies := rfl


/-! ### newPB -/

@[simp] theorem newPB_cfg (kind : PbKind) (w h : Word) (stride : Nat) (bytes : List Byte) (s : State) :
    (newPB kind w h stride bytes s).cfg = s.cfg := rfl

@[simp] theorem newPB_width (kind : PbKind) (w h : Word) (stride : Nat) (bytes : List Byte) (s : State) :
    (newPB kind w h stride bytes s).width = s.width := rfl

@[simp] theorem newPB_height (kind : PbKind) (w h : Word) (stride : Nat) (bytes : List Byte) (s : State) :
    (newPB kind w h stride bytes s).height = s.height := rfl

@[simp] theorem newPB_format (kind : PbKind) (w h : Word) (stride : Nat) (bytes : List Byte) (s : State) :
    (newPB kind w h stride bytes s).format = s.format := rfl

@[simp] theorem newPB_arg (kind : PbKind) (w h : Word) (stride : Nat) (bytes : List Byte) (s : State) :
    (newPB kind w h stride bytes s).arg = s.arg := rfl

@[simp] theorem newPB_err (kind : PbKind) (w h : Word) (stride : Nat) (bytes : List Byte) (s : State) :
    (newPB kind w h stride bytes s).err = s.err := rfl

@[simp] theorem newPB_pbKind (kind : PbKind) (w h : Word) (stride : Nat) (bytes : List Byte) (s : State) :
    (newPB kind w h stride bytes s).pbKind = kind := rfl

@[simp] theorem newPB_pbWidth (kind : PbKind) (w h : Word) (stride : Nat) (bytes : List Byte) (s : State) :
    (newPB kind w h stride bytes s).pbWidth = w := rfl

@[simp] theorem newPB_pbHeight (kind : PbKind) (w h : Word) (stride : Nat) (bytes : List Byte) (s : State) :
    (newPB kind w h stride bytes s).pbHeight = h := rfl

@[simp] theorem newPB_pbStride (kind : PbKind) (w h : Word) (stride : Nat) (bytes : List Byte) (s : State) :
    (newPB kind w h stride bytes s).pbStride = BitVec.ofNat 32 stride := rfl

@[simp] theorem newPB_pbSize (kind : PbKind) (w h : Word) (stride : Nat) (bytes : List Byte) (s : State) :
    (newPB kind w h stride bytes s).pbSize = BitVec.ofNat 32 (stride * h.toNat) := rfl

@[simp] theorem newPB_result0 (kind : PbKind) (w h : Word) (stride : Nat) (bytes : List Byte) (s : State) :
    (newPB kind w h stride bytes s).result0 = s.result0 := rfl

@[simp] theorem newPB_result1 (kind : PbKind) (w h : Word) (stride : Nat) (bytes : List Byte) (s : State) :
    (newPB kind w h stride bytes s).result1 = s.result1 := rfl

@[simp] theorem newPB_src (kind : PbKind) (w h : Word) (stride : Nat) (bytes : List Byte) (s : State) :
    (newPB kind w h stride bytes s).src = s.src := rfl

@[simp] theorem newPB_srcEpoch (kind : PbKind) (w h : Word) (stride : Nat) (bytes : List Byte) (s : State) :
    (newPB kind w h stride bytes s).srcEpoch = s.srcEpoch := rfl

@[simp] theorem newPB_pb (kind : PbKind) (w h : Word) (stride : Nat) (bytes : List Byte) (s : State) :
    (newPB kind w h stride bytes s).pb = bytes := rfl

@[simp] theorem newPB_script (kind : PbKind) (w h : Word) (stride : Nat) (bytes : List Byte) (s : State) :
    (newPB kind w h stride bytes s).script = s.script := rfl

@[simp] theorem newPB_replies (kind : PbKind) (w h : Word) (stride : Nat) (bytes : List Byte) (s : State) :
    (newPB kind w h stride bytes s).replies = s.replies := rfl


/-! ### enterError -/

@[simp] theorem enterError_cfg (e : ErrorKind) (s : State) :
    (enterError e s).cfg = s.cfg := rfl

@[simp] theorem enterError_width (e : ErrorKind) (s : State) :
    (enterError e s).width = s.width := rfl

@[simp] theorem enterError_height (e : ErrorKind) (s : State) :
    (enterError e s).height = s.height := rfl

@[simp] theorem enterError_format (e : ErrorKind) (s : State) :
    (enterError e s).format = s.format := rfl

@[simp] theorem enterError_arg (e : ErrorKind) (s : State) :
    (enterError e s).arg = s.arg := rfl

@[simp] theorem enterError_err (e : ErrorKind) (s : State) :
    (enterError e s).err = some e := rfl

@[simp] theorem enterError_pbKind (e : ErrorKind) (s : State) :
    (enterError e s).pbKind = .absent := rfl

@[simp] theorem enterError_pbWidth (e : ErrorKind) (s : State) :
    (enterError e s).pbWidth = 0 := rfl

@[simp] theorem enterError_pbHeight (e : ErrorKind) (s : State) :
    (enterError e s).pbHeight = 0 := rfl

@[simp] theorem enterError_pbStride (e : ErrorKind) (s : State) :
    (enterError e s).pbStride = 0 := rfl

@[simp] theorem enterError_pbSize (e : ErrorKind) (s : State) :
    (enterError e s).pbSize = 0 := rfl

@[simp] theorem enterError_result0 (e : ErrorKind) (s : State) :
    (enterError e s).result0 = s.result0 := rfl

@[simp] theorem enterError_result1 (e : ErrorKind) (s : State) :
    (enterError e s).result1 = s.result1 := rfl

@[simp] theorem enterError_src (e : ErrorKind) (s : State) :
    (enterError e s).src = s.src := rfl

@[simp] theorem enterError_srcEpoch (e : ErrorKind) (s : State) :
    (enterError e s).srcEpoch = s.srcEpoch := rfl

@[simp] theorem enterError_pb (e : ErrorKind) (s : State) :
    (enterError e s).pb = [] := rfl

@[simp] theorem enterError_script (e : ErrorKind) (s : State) :
    (enterError e s).script = s.script := rfl

@[simp] theorem enterError_replies (e : ErrorKind) (s : State) :
    (enterError e s).replies = s.replies := rfl


/-! ### leaveError -/

@[simp] theorem leaveError_cfg (s : State) :
    (leaveError s).cfg = s.cfg := rfl

@[simp] theorem leaveError_width (s : State) :
    (leaveError s).width = s.width := rfl

@[simp] theorem leaveError_height (s : State) :
    (leaveError s).height = s.height := rfl

@[simp] theorem leaveError_format (s : State) :
    (leaveError s).format = s.format := rfl

@[simp] theorem leaveError_arg (s : State) :
    (leaveError s).arg = s.arg := rfl

@[simp] theorem leaveError_err (s : State) :
    (leaveError s).err = none := rfl

@[simp] theorem leaveError_pbKind (s : State) :
    (leaveError s).pbKind = .absent := rfl

@[simp] theorem leaveError_pbWidth (s : State) :
    (leaveError s).pbWidth = 0 := rfl

@[simp] theorem leaveError_pbHeight (s : State) :
    (leaveError s).pbHeight = 0 := rfl

@[simp] theorem leaveError_pbStride (s : State) :
    (leaveError s).pbStride = 0 := rfl

@[simp] theorem leaveError_pbSize (s : State) :
    (leaveError s).pbSize = 0 := rfl

@[simp] theorem leaveError_result0 (s : State) :
    (leaveError s).result0 = s.result0 := rfl

@[simp] theorem leaveError_result1 (s : State) :
    (leaveError s).result1 = s.result1 := rfl

@[simp] theorem leaveError_src (s : State) :
    (leaveError s).src = s.src := rfl

@[simp] theorem leaveError_srcEpoch (s : State) :
    (leaveError s).srcEpoch = s.srcEpoch := rfl

@[simp] theorem leaveError_pb (s : State) :
    (leaveError s).pb = [] := rfl

@[simp] theorem leaveError_script (s : State) :
    (leaveError s).script = s.script := rfl

@[simp] theorem leaveError_replies (s : State) :
    (leaveError s).replies = s.replies := rfl


/-! ### setResult0 -/

@[simp] theorem setResult0_cfg (v : Word) (s : State) :
    (setResult0 v s).cfg = s.cfg := rfl

@[simp] theorem setResult0_width (v : Word) (s : State) :
    (setResult0 v s).width = s.width := rfl

@[simp] theorem setResult0_height (v : Word) (s : State) :
    (setResult0 v s).height = s.height := rfl

@[simp] theorem setResult0_format (v : Word) (s : State) :
    (setResult0 v s).format = s.format := rfl

@[simp] theorem setResult0_arg (v : Word) (s : State) :
    (setResult0 v s).arg = s.arg := rfl

@[simp] theorem setResult0_err (v : Word) (s : State) :
    (setResult0 v s).err = s.err := rfl

@[simp] theorem setResult0_pbKind (v : Word) (s : State) :
    (setResult0 v s).pbKind = s.pbKind := rfl

@[simp] theorem setResult0_pbWidth (v : Word) (s : State) :
    (setResult0 v s).pbWidth = s.pbWidth := rfl

@[simp] theorem setResult0_pbHeight (v : Word) (s : State) :
    (setResult0 v s).pbHeight = s.pbHeight := rfl

@[simp] theorem setResult0_pbStride (v : Word) (s : State) :
    (setResult0 v s).pbStride = s.pbStride := rfl

@[simp] theorem setResult0_pbSize (v : Word) (s : State) :
    (setResult0 v s).pbSize = s.pbSize := rfl

@[simp] theorem setResult0_result0 (v : Word) (s : State) :
    (setResult0 v s).result0 = v := rfl

@[simp] theorem setResult0_result1 (v : Word) (s : State) :
    (setResult0 v s).result1 = s.result1 := rfl

@[simp] theorem setResult0_src (v : Word) (s : State) :
    (setResult0 v s).src = s.src := rfl

@[simp] theorem setResult0_srcEpoch (v : Word) (s : State) :
    (setResult0 v s).srcEpoch = s.srcEpoch := rfl

@[simp] theorem setResult0_pb (v : Word) (s : State) :
    (setResult0 v s).pb = s.pb := rfl

@[simp] theorem setResult0_script (v : Word) (s : State) :
    (setResult0 v s).script = s.script := rfl

@[simp] theorem setResult0_replies (v : Word) (s : State) :
    (setResult0 v s).replies = s.replies := rfl


/-! ### setResult1 -/

@[simp] theorem setResult1_cfg (v : Word) (s : State) :
    (setResult1 v s).cfg = s.cfg := rfl

@[simp] theorem setResult1_width (v : Word) (s : State) :
    (setResult1 v s).width = s.width := rfl

@[simp] theorem setResult1_height (v : Word) (s : State) :
    (setResult1 v s).height = s.height := rfl

@[simp] theorem setResult1_format (v : Word) (s : State) :
    (setResult1 v s).format = s.format := rfl

@[simp] theorem setResult1_arg (v : Word) (s : State) :
    (setResult1 v s).arg = s.arg := rfl

@[simp] theorem setResult1_err (v : Word) (s : State) :
    (setResult1 v s).err = s.err := rfl

@[simp] theorem setResult1_pbKind (v : Word) (s : State) :
    (setResult1 v s).pbKind = s.pbKind := rfl

@[simp] theorem setResult1_pbWidth (v : Word) (s : State) :
    (setResult1 v s).pbWidth = s.pbWidth := rfl

@[simp] theorem setResult1_pbHeight (v : Word) (s : State) :
    (setResult1 v s).pbHeight = s.pbHeight := rfl

@[simp] theorem setResult1_pbStride (v : Word) (s : State) :
    (setResult1 v s).pbStride = s.pbStride := rfl

@[simp] theorem setResult1_pbSize (v : Word) (s : State) :
    (setResult1 v s).pbSize = s.pbSize := rfl

@[simp] theorem setResult1_result0 (v : Word) (s : State) :
    (setResult1 v s).result0 = s.result0 := rfl

@[simp] theorem setResult1_result1 (v : Word) (s : State) :
    (setResult1 v s).result1 = v := rfl

@[simp] theorem setResult1_src (v : Word) (s : State) :
    (setResult1 v s).src = s.src := rfl

@[simp] theorem setResult1_srcEpoch (v : Word) (s : State) :
    (setResult1 v s).srcEpoch = s.srcEpoch := rfl

@[simp] theorem setResult1_pb (v : Word) (s : State) :
    (setResult1 v s).pb = s.pb := rfl

@[simp] theorem setResult1_script (v : Word) (s : State) :
    (setResult1 v s).script = s.script := rfl

@[simp] theorem setResult1_replies (v : Word) (s : State) :
    (setResult1 v s).replies = s.replies := rfl


/-! ### reply -/

@[simp] theorem reply_cfg (r : Reply) (s : State) :
    (reply r s).cfg = s.cfg := rfl

@[simp] theorem reply_width (r : Reply) (s : State) :
    (reply r s).width = s.width := rfl

@[simp] theorem reply_height (r : Reply) (s : State) :
    (reply r s).height = s.height := rfl

@[simp] theorem reply_format (r : Reply) (s : State) :
    (reply r s).format = s.format := rfl

@[simp] theorem reply_arg (r : Reply) (s : State) :
    (reply r s).arg = s.arg := rfl

@[simp] theorem reply_err (r : Reply) (s : State) :
    (reply r s).err = s.err := rfl

@[simp] theorem reply_pbKind (r : Reply) (s : State) :
    (reply r s).pbKind = s.pbKind := rfl

@[simp] theorem reply_pbWidth (r : Reply) (s : State) :
    (reply r s).pbWidth = s.pbWidth := rfl

@[simp] theorem reply_pbHeight (r : Reply) (s : State) :
    (reply r s).pbHeight = s.pbHeight := rfl

@[simp] theorem reply_pbStride (r : Reply) (s : State) :
    (reply r s).pbStride = s.pbStride := rfl

@[simp] theorem reply_pbSize (r : Reply) (s : State) :
    (reply r s).pbSize = s.pbSize := rfl

@[simp] theorem reply_result0 (r : Reply) (s : State) :
    (reply r s).result0 = s.result0 := rfl

@[simp] theorem reply_result1 (r : Reply) (s : State) :
    (reply r s).result1 = s.result1 := rfl

@[simp] theorem reply_src (r : Reply) (s : State) :
    (reply r s).src = s.src := rfl

@[simp] theorem reply_srcEpoch (r : Reply) (s : State) :
    (reply r s).srcEpoch = s.srcEpoch := rfl

@[simp] theorem reply_pb (r : Reply) (s : State) :
    (reply r s).pb = s.pb := rfl

@[simp] theorem reply_script (r : Reply) (s : State) :
    (reply r s).script = s.script := rfl

@[simp] theorem reply_replies (r : Reply) (s : State) :
    (reply r s).replies = r :: s.replies := rfl


/-! ### withScript -/

@[simp] theorem withScript_cfg (rest : List HostEvent) (s : State) :
    (withScript rest s).cfg = s.cfg := rfl

@[simp] theorem withScript_width (rest : List HostEvent) (s : State) :
    (withScript rest s).width = s.width := rfl

@[simp] theorem withScript_height (rest : List HostEvent) (s : State) :
    (withScript rest s).height = s.height := rfl

@[simp] theorem withScript_format (rest : List HostEvent) (s : State) :
    (withScript rest s).format = s.format := rfl

@[simp] theorem withScript_arg (rest : List HostEvent) (s : State) :
    (withScript rest s).arg = s.arg := rfl

@[simp] theorem withScript_err (rest : List HostEvent) (s : State) :
    (withScript rest s).err = s.err := rfl

@[simp] theorem withScript_pbKind (rest : List HostEvent) (s : State) :
    (withScript rest s).pbKind = s.pbKind := rfl

@[simp] theorem withScript_pbWidth (rest : List HostEvent) (s : State) :
    (withScript rest s).pbWidth = s.pbWidth := rfl

@[simp] theorem withScript_pbHeight (rest : List HostEvent) (s : State) :
    (withScript rest s).pbHeight = s.pbHeight := rfl

@[simp] theorem withScript_pbStride (rest : List HostEvent) (s : State) :
    (withScript rest s).pbStride = s.pbStride := rfl

@[simp] theorem withScript_pbSize (rest : List HostEvent) (s : State) :
    (withScript rest s).pbSize = s.pbSize := rfl

@[simp] theorem withScript_result0 (rest : List HostEvent) (s : State) :
    (withScript rest s).result0 = s.result0 := rfl

@[simp] theorem withScript_result1 (rest : List HostEvent) (s : State) :
    (withScript rest s).result1 = s.result1 := rfl

@[simp] theorem withScript_src (rest : List HostEvent) (s : State) :
    (withScript rest s).src = s.src := rfl

@[simp] theorem withScript_srcEpoch (rest : List HostEvent) (s : State) :
    (withScript rest s).srcEpoch = s.srcEpoch := rfl

@[simp] theorem withScript_pb (rest : List HostEvent) (s : State) :
    (withScript rest s).pb = s.pb := rfl

@[simp] theorem withScript_script (rest : List HostEvent) (s : State) :
    (withScript rest s).script = rest := rfl

@[simp] theorem withScript_replies (rest : List HostEvent) (s : State) :
    (withScript rest s).replies = s.replies := rfl


/-! ### resetMachine -/

@[simp] theorem resetMachine_cfg (s : State) :
    (resetMachine s).cfg = s.cfg := rfl

@[simp] theorem resetMachine_width (s : State) :
    (resetMachine s).width = 0 := rfl

@[simp] theorem resetMachine_height (s : State) :
    (resetMachine s).height = 0 := rfl

@[simp] theorem resetMachine_format (s : State) :
    (resetMachine s).format = 0 := rfl

@[simp] theorem resetMachine_arg (s : State) :
    (resetMachine s).arg = 0 := rfl

@[simp] theorem resetMachine_err (s : State) :
    (resetMachine s).err = none := rfl

@[simp] theorem resetMachine_pbKind (s : State) :
    (resetMachine s).pbKind = .absent := rfl

@[simp] theorem resetMachine_pbWidth (s : State) :
    (resetMachine s).pbWidth = 0 := rfl

@[simp] theorem resetMachine_pbHeight (s : State) :
    (resetMachine s).pbHeight = 0 := rfl

@[simp] theorem resetMachine_pbStride (s : State) :
    (resetMachine s).pbStride = 0 := rfl

@[simp] theorem resetMachine_pbSize (s : State) :
    (resetMachine s).pbSize = 0 := rfl

@[simp] theorem resetMachine_result0 (s : State) :
    (resetMachine s).result0 = 0 := rfl

@[simp] theorem resetMachine_result1 (s : State) :
    (resetMachine s).result1 = 0 := rfl

@[simp] theorem resetMachine_src (s : State) :
    (resetMachine s).src = [] := rfl

@[simp] theorem resetMachine_srcEpoch (s : State) :
    (resetMachine s).srcEpoch = s.srcEpoch + 1 := rfl

@[simp] theorem resetMachine_pb (s : State) :
    (resetMachine s).pb = [] := rfl

@[simp] theorem resetMachine_script (s : State) :
    (resetMachine s).script = s.script := rfl

@[simp] theorem resetMachine_replies (s : State) :
    (resetMachine s).replies = s.replies := rfl


/-! ### storeReg and srcWrite -/

@[simp] theorem storeReg_cfg (r : RegName) (v : Word) (s : State) :
    (storeReg r v s).cfg = s.cfg := by
  cases r <;> rfl

theorem storeReg_width (r : RegName) (v : Word) (s : State) :
    (storeReg r v s).width = if r = .width then v else s.width := by
  cases r <;> rfl

theorem storeReg_height (r : RegName) (v : Word) (s : State) :
    (storeReg r v s).height = if r = .height then v else s.height := by
  cases r <;> rfl

theorem storeReg_format (r : RegName) (v : Word) (s : State) :
    (storeReg r v s).format = if r = .format then v &&& formatMask else s.format := by
  cases r <;> rfl

theorem storeReg_arg (r : RegName) (v : Word) (s : State) :
    (storeReg r v s).arg = if r = .arg then v else s.arg := by
  cases r <;> rfl

@[simp] theorem storeReg_err (r : RegName) (v : Word) (s : State) :
    (storeReg r v s).err = s.err := by
  cases r <;> rfl

@[simp] theorem storeReg_pbKind (r : RegName) (v : Word) (s : State) :
    (storeReg r v s).pbKind = s.pbKind := by
  cases r <;> rfl

@[simp] theorem storeReg_pbWidth (r : RegName) (v : Word) (s : State) :
    (storeReg r v s).pbWidth = s.pbWidth := by
  cases r <;> rfl

@[simp] theorem storeReg_pbHeight (r : RegName) (v : Word) (s : State) :
    (storeReg r v s).pbHeight = s.pbHeight := by
  cases r <;> rfl

@[simp] theorem storeReg_pbStride (r : RegName) (v : Word) (s : State) :
    (storeReg r v s).pbStride = s.pbStride := by
  cases r <;> rfl

@[simp] theorem storeReg_pbSize (r : RegName) (v : Word) (s : State) :
    (storeReg r v s).pbSize = s.pbSize := by
  cases r <;> rfl

@[simp] theorem storeReg_result0 (r : RegName) (v : Word) (s : State) :
    (storeReg r v s).result0 = s.result0 := by
  cases r <;> rfl

@[simp] theorem storeReg_result1 (r : RegName) (v : Word) (s : State) :
    (storeReg r v s).result1 = s.result1 := by
  cases r <;> rfl

@[simp] theorem storeReg_src (r : RegName) (v : Word) (s : State) :
    (storeReg r v s).src = s.src := by
  cases r <;> rfl

@[simp] theorem storeReg_srcEpoch (r : RegName) (v : Word) (s : State) :
    (storeReg r v s).srcEpoch = s.srcEpoch := by
  cases r <;> rfl

@[simp] theorem storeReg_pb (r : RegName) (v : Word) (s : State) :
    (storeReg r v s).pb = s.pb := by
  cases r <;> rfl

@[simp] theorem storeReg_script (r : RegName) (v : Word) (s : State) :
    (storeReg r v s).script = s.script := by
  cases r <;> rfl

@[simp] theorem storeReg_replies (r : RegName) (v : Word) (s : State) :
    (storeReg r v s).replies = s.replies := by
  cases r <;> rfl

@[simp] theorem srcWrite_cfg (a : Nat) (v : Byte) (s : State) :
    (srcWrite a v s).cfg = s.cfg := by
  unfold srcWrite; split <;> rfl

@[simp] theorem srcWrite_width (a : Nat) (v : Byte) (s : State) :
    (srcWrite a v s).width = s.width := by
  unfold srcWrite; split <;> rfl

@[simp] theorem srcWrite_height (a : Nat) (v : Byte) (s : State) :
    (srcWrite a v s).height = s.height := by
  unfold srcWrite; split <;> rfl

@[simp] theorem srcWrite_format (a : Nat) (v : Byte) (s : State) :
    (srcWrite a v s).format = s.format := by
  unfold srcWrite; split <;> rfl

@[simp] theorem srcWrite_arg (a : Nat) (v : Byte) (s : State) :
    (srcWrite a v s).arg = s.arg := by
  unfold srcWrite; split <;> rfl

@[simp] theorem srcWrite_err (a : Nat) (v : Byte) (s : State) :
    (srcWrite a v s).err = s.err := by
  unfold srcWrite; split <;> rfl

@[simp] theorem srcWrite_pbKind (a : Nat) (v : Byte) (s : State) :
    (srcWrite a v s).pbKind = s.pbKind := by
  unfold srcWrite; split <;> rfl

@[simp] theorem srcWrite_pbWidth (a : Nat) (v : Byte) (s : State) :
    (srcWrite a v s).pbWidth = s.pbWidth := by
  unfold srcWrite; split <;> rfl

@[simp] theorem srcWrite_pbHeight (a : Nat) (v : Byte) (s : State) :
    (srcWrite a v s).pbHeight = s.pbHeight := by
  unfold srcWrite; split <;> rfl

@[simp] theorem srcWrite_pbStride (a : Nat) (v : Byte) (s : State) :
    (srcWrite a v s).pbStride = s.pbStride := by
  unfold srcWrite; split <;> rfl

@[simp] theorem srcWrite_pbSize (a : Nat) (v : Byte) (s : State) :
    (srcWrite a v s).pbSize = s.pbSize := by
  unfold srcWrite; split <;> rfl

@[simp] theorem srcWrite_result0 (a : Nat) (v : Byte) (s : State) :
    (srcWrite a v s).result0 = s.result0 := by
  unfold srcWrite; split <;> rfl

@[simp] theorem srcWrite_result1 (a : Nat) (v : Byte) (s : State) :
    (srcWrite a v s).result1 = s.result1 := by
  unfold srcWrite; split <;> rfl

theorem srcWrite_src (a : Nat) (v : Byte) (s : State) :
    (srcWrite a v s).src = if a < s.cfg.srcCap then Memory.write s.src a v else s.src := by
  unfold srcWrite; split <;> rfl

@[simp] theorem srcWrite_srcEpoch (a : Nat) (v : Byte) (s : State) :
    (srcWrite a v s).srcEpoch = s.srcEpoch := by
  unfold srcWrite; split <;> rfl

@[simp] theorem srcWrite_pb (a : Nat) (v : Byte) (s : State) :
    (srcWrite a v s).pb = s.pb := by
  unfold srcWrite; split <;> rfl

@[simp] theorem srcWrite_script (a : Nat) (v : Byte) (s : State) :
    (srcWrite a v s).script = s.script := by
  unfold srcWrite; split <;> rfl

@[simp] theorem srcWrite_replies (a : Nat) (v : Byte) (s : State) :
    (srcWrite a v s).replies = s.replies := by
  unfold srcWrite; split <;> rfl


/-! ### Reset -/

@[simp] theorem resetWith_cfg (p : Config.Params) : (State.resetWith p).cfg = p := rfl

@[simp] theorem resetWith_width (p : Config.Params) : (State.resetWith p).width = 0 := rfl

@[simp] theorem resetWith_height (p : Config.Params) : (State.resetWith p).height = 0 := rfl

@[simp] theorem resetWith_format (p : Config.Params) : (State.resetWith p).format = 0 := rfl

@[simp] theorem resetWith_arg (p : Config.Params) : (State.resetWith p).arg = 0 := rfl

@[simp] theorem resetWith_err (p : Config.Params) : (State.resetWith p).err = none := rfl

@[simp] theorem resetWith_pbKind (p : Config.Params) : (State.resetWith p).pbKind = .absent := rfl

@[simp] theorem resetWith_pbWidth (p : Config.Params) : (State.resetWith p).pbWidth = 0 := rfl

@[simp] theorem resetWith_pbHeight (p : Config.Params) : (State.resetWith p).pbHeight = 0 := rfl

@[simp] theorem resetWith_pbStride (p : Config.Params) : (State.resetWith p).pbStride = 0 := rfl

@[simp] theorem resetWith_pbSize (p : Config.Params) : (State.resetWith p).pbSize = 0 := rfl

@[simp] theorem resetWith_result0 (p : Config.Params) : (State.resetWith p).result0 = 0 := rfl

@[simp] theorem resetWith_result1 (p : Config.Params) : (State.resetWith p).result1 = 0 := rfl

@[simp] theorem resetWith_src (p : Config.Params) : (State.resetWith p).src = [] := rfl

@[simp] theorem resetWith_srcEpoch (p : Config.Params) : (State.resetWith p).srcEpoch = 0 := rfl

@[simp] theorem resetWith_pb (p : Config.Params) : (State.resetWith p).pb = [] := rfl

@[simp] theorem resetWith_script (p : Config.Params) : (State.resetWith p).script = [] := rfl

@[simp] theorem resetWith_replies (p : Config.Params) : (State.resetWith p).replies = [] := rfl

end Sys2Proof.Machine
end

