-- ==== Sys2Proof/Laws/Ops.lean ====
section
/-! SUPPORT. One lemma for each shared operation, saying all it does: the error-state gate, reading and
writing `SRC` and `PB`, the register file, and what each command and each host event can answer. -/

namespace Sys2Proof.Machine

/-! ### The gate -/

theorem unlessError_of_none {s : State} (h : s.err = none) (r : Result) : unlessError s r = r := by
  simp [unlessError, h]

theorem unlessError_of_error {s : State} {e : ErrorKind} (h : s.err = some e) (r : Result) :
    unlessError s r = .next s := by
  simp [unlessError, h]

/-! ### `SRC` and `PB` -/

theorem srcRead_of_ge {s : State} {a : Nat} (h : s.cfg.srcCap ≤ a) : srcRead s a = 0 := by
  simp [srcRead, Nat.not_lt.mpr h]

/-- What a read of `SRC` depends on. -/
theorem srcRead_congr {s t : State} (hc : t.cfg = s.cfg) (hs : t.src = s.src)
    (he : t.srcEpoch = s.srcEpoch) (a : Nat) : srcRead t a = srcRead s a := by
  simp [srcRead, hc, hs, he]

/-- Reading `SRC` after a write to it (R35). -/
theorem srcRead_srcWrite (s : State) (a b : Nat) (v : Byte) :
    srcRead (srcWrite a v s) b = if b = a ∧ a < s.cfg.srcCap then v else srcRead s b := by
  by_cases ha : a < s.cfg.srcCap
  · by_cases hb : b = a
    · subst hb
      simp [srcRead, srcWrite_src, ha, read?_write_self]
    · simp [srcRead, srcWrite_src, ha, hb, read?_write_other _ _ _ _ hb]
  · have : srcWrite a v s = s := by simp [srcWrite, ha]
    simp [this, ha]

theorem pbRead_of_absent {s : State} (h : s.pbKind = .absent) (a : Nat) : pbRead s a = 0 := by
  simp [pbRead, h]

/-- What a read of `PB` depends on. -/
theorem pbRead_congr {s t : State} (hk : t.pbKind = s.pbKind) (hz : t.pbSize = s.pbSize)
    (hp : t.pb = s.pb) (a : Nat) : pbRead t a = pbRead s a := by
  simp [pbRead, hk, hz, hp]

/-! ### The register file -/

/-- The index of a register names it (R9). -/
@[simp] theorem ofIndex_index (r : RegName) : RegName.ofIndex r.index = some r := by cases r <;> rfl

/-- An index names a register only if it is the register's (R9). -/
theorem index_of_ofIndex {i : Nat} {r : RegName} (h : RegName.ofIndex i = some r) : r.index = i := by
  unfold RegName.ofIndex at h
  split at h <;> cases h <;> rfl

/-- Indexes 12 and above are reserved (R23). -/
theorem ofIndex_reserved {i : Nat} (h : 12 ≤ i) : RegName.ofIndex i = none := by
  cases hr : RegName.ofIndex i with
  | none => rfl
  | some r =>
    have := index_of_ofIndex hr
    cases r <;> simp [RegName.index] at this <;> omega

/-! ### Strides and pixels as statements write them -/

/-- The source stride PACK computes is the one written out (R39, R40, R42). -/
theorem srcStride_eq (w : Nat) (strat : Strategy) : strat.srcStride w = strat.sourceRow w := by
  cases strat <;> simp [Strategy.srcStride, Strategy.sourceRow, stride1_eq]

/-- The packed stride PACK computes is the one written out (R19, R42). -/
theorem dstStride_eq (w : Nat) (strat : Strategy) : strat.dstStride w = strat.packedRow w := by
  cases strat <;> simp [Strategy.dstStride, Strategy.packedRow, stride1_eq]

/-- `getBit` reads the pixel's bit of the pixel's byte (R46). -/
theorem getBit_eq_pixelAt (A : List Byte) (stride x y : Nat) :
    getBit A stride x y = pixelAt A stride x y := getBit_eq A stride x y

/-- The strides written out are those of the strategy `FORMAT` selects (R63, R64). -/
theorem strides_iff (s : State) (ss ds : Nat) :
    s.strides ss ds ↔ ∃ strat, formatStrategy s.cfg s.format = some strat ∧
      ss = strat.sourceRow s.width.toNat ∧ ds = strat.packedRow s.width.toNat := by
  have hd : formatDepth s.format = s.format.toNat % 256 := by simp [formatDepth]
  have hl : (s.format.extractLsb' 8 2).toNat = s.format.toNat / 256 % 4 := by
    simp [Nat.shiftRight_eq_div_pow]
  unfold State.strides formatStrategy formatLayout formatRaw
  rw [hd, hl]
  have hl4 : s.format.toNat / 256 % 4 < 4 := Nat.mod_lt _ (by decide)
  generalize s.format.toNat % 256 = d, s.format.toNat / 256 % 4 = l at hl4 ⊢
  generalize s.format.getLsbD 16 = raw
  constructor
  · rintro (⟨rfl, rfl, rfl, rfl⟩ | ⟨rfl, rfl, rfl, rfl, rfl⟩ | ⟨rfl, rfl, rfl, rfl, rfl⟩ |
      ⟨rfl, rfl, rfl, rfl, rfl⟩ | ⟨rfl, rfl, rfl, rfl, rfl⟩ | ⟨rfl, h, rfl, rfl⟩)
    · exact ⟨.mono, rfl, rfl, rfl⟩
    · exact ⟨.classify 3, rfl, rfl, rfl⟩
    · exact ⟨.classify 4, rfl, rfl, rfl⟩
    · exact ⟨.rawCopy 3, rfl, rfl, rfl⟩
    · exact ⟨.rawCopy 4, rfl, rfl, rfl⟩
    · exact ⟨.rawCopy s.cfg.bpp16, by interval_cases l <;> rfl, rfl, rfl⟩
  · rintro ⟨strat, h, rfl, rfl⟩
    unfold strategy at h
    interval_cases l <;> simp at h <;> split at h <;> simp_all [bpp] <;>
      (try subst h) <;> (try simp [Strategy.sourceRow, Strategy.packedRow])
    all_goals
      rename_i hlayout
      subst hlayout
      obtain ⟨n, hn, rfl⟩ := h
      cases hn
      exact ⟨rfl, rfl⟩

/-! ### What each command can answer -/

/-- PACK: ignored in the error state; or an error entry; or a packed bitmap. -/
theorem execPack_cases {s t : State} (h : execPack s = .next t) :
    (s.err ≠ none ∧ t = s) ∨
    (s.err = none ∧ (∀ strat, ¬ s.packable strat) ∧ ∃ e, t = enterError e s) ∨
    (s.err = none ∧ ∃ strat, s.packable strat ∧
      t = newPB strat.kind s.width s.height (strat.dstStride s.width.toNat)
        (strat.pack (srcRead s) s.width.toNat s.height.toNat) s) := by
  unfold execPack at h
  cases he : s.err with
  | some e =>
    rw [unlessError_of_error he] at h
    cases h; exact .inl ⟨by simp, rfl⟩
  | none =>
    rw [unlessError_of_none he] at h
    right
    cases hf : formatStrategy s.cfg s.format with
    | none =>
      rw [hf] at h
      cases h
      exact .inl ⟨rfl, fun strat hp => by simp [State.packable, hf] at hp, _, rfl⟩
    | some strat =>
      rw [hf] at h
      have same : ∀ strat', s.packable strat' → strat' = strat := fun strat' hp => by
        have := hp.1; rw [hf] at this; exact (Option.some.inj this).symm
      dsimp only at h
      split at h
      · next hz =>
        cases h
        exact .inl ⟨rfl, fun strat' hp => by
          obtain ⟨-, hw, hh, -⟩ := hp; omega, _, rfl⟩
      · split at h
        · next hz hc =>
          cases h
          exact .inl ⟨rfl, fun strat' hp => by
            obtain rfl := same strat' hp
            rw [srcStride_eq, dstStride_eq] at hc
            obtain ⟨-, -, -, h1, h2⟩ := hp; omega, _, rfl⟩
        · next hz hc =>
          cases h
          rw [srcStride_eq, dstStride_eq] at hc
          exact .inr ⟨rfl, strat, ⟨hf, by omega, by omega, by omega, by omega⟩, rfl⟩

/-- PACK when every check passes (R63). -/
theorem execPack_of_packable {s : State} {strat : Strategy} (he : s.err = none)
    (hp : s.packable strat) :
    execPack s = .next (newPB strat.kind s.width s.height (strat.dstStride s.width.toNat)
      (strat.pack (srcRead s) s.width.toNat s.height.toNat) s) := by
  obtain ⟨hf, hw, hh, h1, h2⟩ := hp
  unfold execPack
  rw [unlessError_of_none he, hf]
  dsimp only
  rw [srcStride_eq, dstStride_eq, if_neg (by omega), if_neg (by omega)]

/-- ROTATE: ignored in the error state; or an error entry; or no change at angle 0; or a rotated bitmap. -/
theorem execRotate_cases {angle : Nat} {s t : State} (h : execRotate angle s = .next t) :
    (s.err ≠ none ∧ t = s) ∨
    (s.err = none ∧ ∃ e, t = enterError e s) ∨
    (s.err = none ∧ s.pbKind = .bits1 ∧ angle = 0 ∧ t = s) ∨
    (s.err = none ∧ s.pbKind = .bits1 ∧ ∃ r, Rotation.ofDegrees angle = some r ∧ r ≠ .deg0 ∧
      stride1 (r.width2 s.pbWidth s.pbHeight).toNat * (r.height2 s.pbWidth s.pbHeight).toNat
        ≤ s.cfg.pbCap ∧
      t = newPB .bits1 (r.width2 s.pbWidth s.pbHeight) (r.height2 s.pbWidth s.pbHeight)
        (stride1 (r.width2 s.pbWidth s.pbHeight).toNat)
        (rotateBits s.pb s.pbWidth.toNat s.pbHeight.toNat s.pbStride.toNat r
          (stride1 (r.width2 s.pbWidth s.pbHeight).toNat) (r.height2 s.pbWidth s.pbHeight).toNat) s) := by
  unfold execRotate at h
  cases he : s.err with
  | some e =>
    rw [unlessError_of_error he] at h
    cases h; exact .inl ⟨by simp, rfl⟩
  | none =>
    rw [unlessError_of_none he] at h
    right
    cases hr : Rotation.ofDegrees angle with
    | none => rw [hr] at h; cases h; exact .inl ⟨rfl, _, rfl⟩
    | some r =>
      rw [hr] at h
      dsimp only at h
      split at h
      · cases h; exact .inl ⟨rfl, _, rfl⟩
      · next hk =>
        simp only [ne_eq, not_not] at hk
        split at h
        · next h0 =>
          cases h
          subst h0
          refine .inr (.inl ⟨rfl, hk, ?_, rfl⟩)
          unfold Rotation.ofDegrees at hr
          split at hr <;> simp_all
        · next h0 =>
          split at h
          · cases h
            exact .inl ⟨rfl, _, rfl⟩
          · next hc =>
            cases h
            exact .inr (.inr ⟨rfl, hk, r, rfl, h0, by omega, rfl⟩)

end Sys2Proof.Machine
end

