-- ==== Sys2Proof/Laws/Pack.lean ====
section
/-! SUPPORT. What the three packing strategies make: how many bytes, and each byte or bit. -/

namespace Sys2Proof.Machine

/-! ### Rows of equal length, one after another -/

theorem length_rows {α : Type} (h s : Nat) (f : Nat → List α) (hf : ∀ y, (f y).length = s) :
    ((List.range h).flatMap f).length = s * h := by
  simp [List.length_flatMap, hf, Nat.mul_comm]

/-- The element at column `k` of row `y`. -/
theorem getElem?_rows {α : Type} (h s : Nat) (f : Nat → List α) (hf : ∀ y, (f y).length = s)
    {y k : Nat} (hy : y < h) (hk : k < s) :
    ((List.range h).flatMap f)[y * s + k]? = (f y)[k]? := by
  induction h with
  | zero => omega
  | succ n ih =>
    rw [List.range_succ, List.flatMap_append]
    have hlen := length_rows n s f hf
    by_cases hn : y < n
    · rw [List.getElem?_append_left, ih hn]
      rw [hlen]
      calc y * s + k < y * s + s := by omega
        _ = s * (y + 1) := by ring
        _ ≤ s * n := Nat.mul_le_mul_left _ hn
    · have hyn : y = n := by omega
      subst hyn
      have he : y * s + k - s * y = k := by rw [Nat.mul_comm]; omega
      rw [List.getElem?_append_right (by rw [hlen, Nat.mul_comm]; omega), hlen, he]
      simp

/-- An offset in an array of whole rows has a row and a column. -/
theorem offset_cases {i s h : Nat} (hi : i < s * h) :
    ∃ y k, y < h ∧ k < s ∧ i = y * s + k := by
  have hs : 0 < s := by
    rcases Nat.eq_zero_or_pos s with h0 | h0
    · rw [h0, Nat.zero_mul] at hi; omega
    · exact h0
  refine ⟨i / s, i % s, ?_, Nat.mod_lt _ hs, ?_⟩
  · rw [Nat.div_lt_iff_lt_mul hs, Nat.mul_comm]; exact hi
  · rw [Nat.mul_comm]; exact (Nat.div_add_mod i s).symm

/-! ### The monochrome strategy -/

theorem length_packMono (rd : Nat → Byte) (w h : Nat) :
    (packMono rd w h).length = stride1 w * h :=
  length_rows _ _ _ (by simp)

/-- Each byte of a monochrome bitmap (R67). -/
theorem packMono_getElem? (rd : Nat → Byte) (w h : Nat) {y k : Nat} (hy : y < h) (hk : k < stride1 w) :
    (packMono rd w h)[y * stride1 w + k]? =
      some (if k + 1 = stride1 w then ~~~rd (y * stride1 w + k) &&& tailMask w
        else ~~~rd (y * stride1 w + k)) := by
  unfold packMono
  rw [getElem?_rows _ _ _ (by simp) hy hk]
  simp [hk]

/-! ### The classification strategy -/

/-- A classified bitmap puts each pixel's darkness at its position. -/
theorem packClassify_eq_foldl (rd : Nat → Byte) (w n : Nat) (l : List (Nat × Nat)) (A : List Byte) :
    (l.foldl (fun bytes p => if isBlack rd (p.2 * (w * n) + p.1 * n)
        then setBit bytes (stride1 w) p.1 p.2 else bytes) A) =
      ((l.filter fun p => isBlack rd (p.2 * (w * n) + p.1 * n)).foldl
        (fun D p => putBit D (stride1 w) p true) A) := by
  induction l generalizing A with
  | nil => rfl
  | cons p l ih =>
    by_cases hp : isBlack rd (p.2 * (w * n) + p.1 * n) = true
    · simp [hp, ih, putBit]
    · simp [hp, ih]

theorem length_packClassify (rd : Nat → Byte) (w h n : Nat) :
    (packClassify rd w h n).length = stride1 w * h := by
  unfold packClassify
  rw [packClassify_eq_foldl rd w n, length_foldl_putBit _ _ (fun p => p) (fun _ => true)]
  simp

/-- Each bit of a classified bitmap (R68): dark exactly at the pure black pixels. -/
theorem getBit_packClassify (rd : Nat → Byte) (w h n : Nat) {x y : Nat} (hx : x < 8 * stride1 w)
    (hy : y < h) :
    getBit (packClassify rd w h n) (stride1 w) x y =
      (decide (x < w) && isBlack rd (y * (w * n) + x * n)) := by
  unfold packClassify
  rw [packClassify_eq_foldl rd w n]
  have hw := le_stride1 w
  have hf : ∀ p ∈ (pixels w h).filter fun p => isBlack rd (p.2 * (w * n) + p.1 * n),
      p.1 < 8 * stride1 w ∧
        bitOffset (stride1 w) p.1 p.2 < (List.replicate (stride1 w * h) (0 : Byte)).length := by
    intro p hp
    have hp' := mem_pixels.mp (List.mem_filter.mp hp).1
    rw [List.length_replicate]
    exact ⟨by omega, bitOffset_lt (by omega) hp'.2⟩
  by_cases hd : x < w ∧ isBlack rd (y * (w * n) + x * n) = true
  · have := getBit_foldl_putBit_mem _ (stride1 w) (fun p => p) (fun _ => true)
      (List.replicate (stride1 w * h) 0) (x, y)
      (List.mem_filter.mpr ⟨mem_pixels.mpr ⟨hd.1, hy⟩, hd.2⟩)
      ((nodup_pixels w h).filter _) hf (fun _ _ he => he)
    simpa [hd.1, hd.2] using this
  · rw [getBit_foldl_putBit_other _ (stride1 w) (fun p => p) (fun _ => true) _ x y hx hf,
      getBit_replicate_zero]
    · simpa using fun hxw => by
        have := not_and.mp hd hxw
        simpa using this
    · rintro p hp rfl
      have := List.mem_filter.mp hp
      exact hd ⟨(mem_pixels.mp this.1).1, this.2⟩

/-! ### The raw strategy -/

/-- A raw bitmap is the first `w * n * h` bytes of the source, in order (R69). -/
theorem packRaw_eq_map (rd : Nat → Byte) (w h n : Nat) :
    packRaw rd w h n = (List.range (w * n * h)).map rd := by
  have inner : ∀ y x, ((List.range n).map fun c => rd (y * (w * n) + x * n + c)).length = n := by simp
  have row : ∀ y, ((List.range w).flatMap fun x =>
      (List.range n).map fun c => rd (y * (w * n) + x * n + c)).length = w * n := fun y => by
    rw [length_rows w n _ (inner y), Nat.mul_comm]
  apply List.ext_getElem?
  intro i
  by_cases hi : i < w * n * h
  · obtain ⟨y, k, hy, hk, rfl⟩ := offset_cases hi
    obtain ⟨x, c, hx, hc, rfl⟩ := offset_cases (s := n) (h := w) (by rw [Nat.mul_comm]; exact hk)
    unfold packRaw
    rw [getElem?_rows h (w * n) _ row hy hk, getElem?_rows w n _ (inner y) hx hc]
    simp [hi, hc, Nat.add_assoc]
  · have hlen : (packRaw rd w h n).length = w * n * h := length_rows h (w * n) _ row
    rw [List.getElem?_eq_none (by omega), List.getElem?_eq_none (by simpa using hi)]

theorem length_packRaw (rd : Nat → Byte) (w h n : Nat) :
    (packRaw rd w h n).length = w * n * h := by simp [packRaw_eq_map]

/-- Every strategy fills its rows exactly (R27, R63). -/
theorem length_pack (rd : Nat → Byte) (w h : Nat) (strat : Strategy) :
    (strat.pack rd w h).length = strat.dstStride w * h := by
  cases strat with
  | mono => exact length_packMono rd w h
  | classify n => exact length_packClassify rd w h n
  | rawCopy n => exact length_packRaw rd w h n

end Sys2Proof.Machine
end

