-- ==== Sys2Proof/Laws/Rotate.lean ====
section
/-! SUPPORT. The geometric mapping and the bits of a rotated bitmap. -/

namespace Sys2Proof.Machine

/-- The size of the destination of a `w` by `h` image (R76). -/
def Rotation.size2 (r : Rotation) (w h : Nat) : Nat × Nat := if r.swaps then (h, w) else (w, h)

theorem width2_toNat (r : Rotation) (w h : Word) :
    (r.width2 w h).toNat = (r.size2 w.toNat h.toNat).1 := by cases r <;> rfl

theorem height2_toNat (r : Rotation) (w h : Word) :
    (r.height2 w h).toNat = (r.size2 w.toNat h.toNat).2 := by cases r <;> rfl

/-- Pixels go to pixels (R76). -/
theorem dest_lt (r : Rotation) {w h : Nat} {p : Nat × Nat} (hx : p.1 < w) (hy : p.2 < h) :
    (r.dest w h p).1 < (r.size2 w h).1 ∧ (r.dest w h p).2 < (r.size2 w h).2 := by
  cases r <;> simp [Rotation.dest, Rotation.size2, Rotation.swaps] <;> omega

/-- No two pixels go to the same place (R76). -/
theorem dest_inj (r : Rotation) {w h : Nat} {p q : Nat × Nat} (hp1 : p.1 < w) (hp2 : p.2 < h)
    (hq1 : q.1 < w) (hq2 : q.2 < h) (he : r.dest w h p = r.dest w h q) : p = q := by
  obtain ⟨px, py⟩ := p
  obtain ⟨qx, qy⟩ := q
  cases r <;> simp [Rotation.dest] at * <;> omega

theorem length_rotateBits (S : List Byte) (w h stride : Nat) (r : Rotation) (stride2 h2 : Nat) :
    (rotateBits S w h stride r stride2 h2).length = stride2 * h2 := by
  unfold rotateBits
  rw [length_foldl_putBit _ _ (r.dest w h) (fun p => getBit S stride p.1 p.2)]
  simp

/-- Every source pixel stands where the mapping sends it (R77). -/
theorem getBit_rotateBits_dest (S : List Byte) (w h stride : Nat) (r : Rotation) {p : Nat × Nat}
    (hx : p.1 < w) (hy : p.2 < h) :
    getBit (rotateBits S w h stride r (stride1 (r.size2 w h).1) (r.size2 w h).2)
      (stride1 (r.size2 w h).1) (r.dest w h p).1 (r.dest w h p).2 = getBit S stride p.1 p.2 := by
  unfold rotateBits
  have hs := le_stride1 (r.size2 w h).1
  refine getBit_foldl_putBit_mem (pixels w h) _ (r.dest w h) (fun p => getBit S stride p.1 p.2) _ p
    (mem_pixels.mpr ⟨hx, hy⟩) (nodup_pixels w h) ?_ ?_
  · intro q hq
    have hq' := mem_pixels.mp hq
    have hd := dest_lt r hq'.1 hq'.2
    rw [List.length_replicate]
    exact ⟨by omega, bitOffset_lt (by omega) hd.2⟩
  · intro q hq he
    have hq' := mem_pixels.mp hq
    exact dest_inj r hq'.1 hq'.2 hx hy he

/-- The padding of a rotated bitmap is zero (R77, R79 (a)). -/
theorem getBit_rotateBits_padding (S : List Byte) (w h stride : Nat) (r : Rotation) {x y : Nat}
    (hx : (r.size2 w h).1 ≤ x) (hx8 : x < 8 * stride1 (r.size2 w h).1) :
    getBit (rotateBits S w h stride r (stride1 (r.size2 w h).1) (r.size2 w h).2)
      (stride1 (r.size2 w h).1) x y = false := by
  unfold rotateBits
  have hs := le_stride1 (r.size2 w h).1
  rw [getBit_foldl_putBit_other (pixels w h) _ (r.dest w h) (fun p => getBit S stride p.1 p.2) _ x y hx8,
    getBit_replicate_zero]
  · intro q hq
    have hq' := mem_pixels.mp hq
    have hd := dest_lt r hq'.1 hq'.2
    rw [List.length_replicate]
    exact ⟨by omega, bitOffset_lt (by omega) hd.2⟩
  · intro q hq he
    have hq' := mem_pixels.mp hq
    have hd := dest_lt r hq'.1 hq'.2
    rw [he] at hd
    simp only at hd
    omega

end Sys2Proof.Machine
end

