-- ==== Sys2Proof/Laws/Invariant.lean ====
section
/-! SUPPORT. Each shared operation keeps the machine's invariant. -/

namespace Sys2Proof.Machine

/-! ### The padding, by bytes and by bits -/

/-- R26 (d) says the padding is zero by the last byte of each row; by bits, it says that every position
past the width reads clear. -/
theorem padding_iff {A : List Byte} {w h : Nat} (hw : 1 ≤ w) (hA : A.length = stride1 w * h) :
    (∀ y < h, ∀ b : Byte, A[y * stride1 w + stride1 w - 1]? = some b → b &&& ~~~tailMask w = 0) ↔
      ∀ y < h, ∀ x, w ≤ x → x < 8 * stride1 w → getBit A (stride1 w) x y = false := by
  have hl := le_stride1 w
  have hlt := stride1_lt w
  have hoff : ∀ x y, w ≤ x → x < 8 * stride1 w →
      bitOffset (stride1 w) x y = y * stride1 w + stride1 w - 1 := by
    intro x y h1 h2
    unfold bitOffset bytePos; omega
  constructor
  · intro H y hy x h1 h2
    have hin := bitOffset_lt h2 hy
    rw [hoff x y h1 h2] at hin
    have hget := List.getElem?_eq_getElem (show y * stride1 w + stride1 w - 1 < A.length by omega)
    rw [getBit_eq, hoff x y h1 h2, hget]
    exact (and_not_tailMask_eq_zero w _).mp (H y hy _ hget) _ (by omega)
  · intro H y hy b hb
    rw [and_not_tailMask_eq_zero]
    intro j hj
    have h1 : w ≤ 8 * (stride1 w - 1) + (7 - j) := by omega
    have h2 : 8 * (stride1 w - 1) + (7 - j) < 8 * stride1 w := by omega
    have := H y hy _ h1 h2
    rw [getBit_eq, hoff _ y h1 h2, hb] at this
    have e : 7 - (8 * (stride1 w - 1) + (7 - j)) % 8 = j := by omega
    rwa [e] at this

/-- In a state with a 1-bit bitmap every position past the width reads clear. -/
theorem getBit_padding {s : State} (hs : s.BitmapInv) (hk : s.pbKind = .bits1) {x y : Nat}
    (hy : y < s.pbHeight.toNat) (hx : s.pbWidth.toNat ≤ x) (hx8 : x < 8 * s.pbStride.toNat) :
    getBit s.pb s.pbStride.toNat x y = false := by
  have hst := hs.stride_bits1 hk
  have hpad := hs.padding_zero hk
  rw [hst] at hpad hx8 ⊢
  refine (padding_iff hs.width_pos ?_).mp hpad y hy x hx hx8
  rw [hs.length_eq, hs.size_eq, hst]

/-! ### The operations -/

/-- Numbers that fit a register read back. -/
theorem stored_size {n h cap : Nat} (hc : cap ≤ 2 ^ 32 - 1) (hh : 1 ≤ h) (hf : n * h ≤ cap) :
    (BitVec.ofNat 32 n).toNat = n ∧ (BitVec.ofNat 32 (n * h)).toNat = n * h := by
  have : n ≤ n * h := Nat.le_mul_of_pos_right n hh
  rw [BitVec.toNat_ofNat, BitVec.toNat_ofNat]
  constructor <;> apply Nat.mod_eq_of_lt <;> omega

/-- The invariants that do not speak of the bitmap are those of a state that agrees on their fields. -/
theorem inv_of_dropped {s t : State} (hs : s.Inv) (hc : t.cfg = s.cfg) (hm : t.src = s.src)
    (hf : t.format = s.format) (hr : t.result1 = s.result1) (hk : t.pbKind = .absent)
    (hz : t.pbWidth = 0 ∧ t.pbHeight = 0 ∧ t.pbStride = 0 ∧ t.pbSize = 0 ∧ t.pb = []) : t.Inv where
  cfg_wf := hc ▸ hs.cfg_wf
  src_wf := hm ▸ hs.src_wf
  src_below := by rw [hc, hm]; exact hs.src_below
  format_reserved := hf ▸ hs.format_reserved
  err_absent := fun _ => hk
  absent_zero := fun _ => hz
  bitmap := fun h => absurd hk h
  result1_byte := hr ▸ hs.result1_byte

theorem enterError_inv {s : State} (hs : s.Inv) (e : ErrorKind) : (enterError e s).Inv :=
  inv_of_dropped hs rfl rfl rfl rfl rfl ⟨rfl, rfl, rfl, rfl, rfl⟩

theorem leaveError_inv {s : State} (hs : s.Inv) : (leaveError s).Inv :=
  inv_of_dropped hs rfl rfl rfl rfl rfl ⟨rfl, rfl, rfl, rfl, rfl⟩

/-- A state of reset meets the invariant when its parameters are legal. -/
theorem resetMachine_inv {s : State} (hs : s.cfg.wf) : (resetMachine s).Inv where
  cfg_wf := hs
  src_wf := rfl
  src_below := rfl
  format_reserved := by simp
  err_absent := fun _ => rfl
  absent_zero := fun _ => ⟨rfl, rfl, rfl, rfl, rfl⟩
  bitmap := fun h => absurd rfl h
  result1_byte := by simp

/-- The invariant carries over to a state that agrees on the bitmap and the error. -/
theorem inv_of_same {s t : State} (hs : s.Inv) (hc : t.cfg = s.cfg)
    (hm : Memory.wf t.src = true ∧ Memory.below t.cfg.srcCap t.src = true)
    (hf : t.format &&& ~~~formatMask = 0) (hr : t.result1.toNat < 256) (he : t.err = s.err)
    (hk : t.pbKind = s.pbKind) (hw : t.pbWidth = s.pbWidth) (hh : t.pbHeight = s.pbHeight)
    (hst : t.pbStride = s.pbStride) (hz : t.pbSize = s.pbSize) (hp : t.pb = s.pb) : t.Inv where
  cfg_wf := hc ▸ hs.cfg_wf
  src_wf := hm.1
  src_below := hm.2
  format_reserved := hf
  err_absent := by rw [he, hk]; exact hs.err_absent
  absent_zero := by rw [hk, hw, hh, hst, hz, hp]; exact hs.absent_zero
  bitmap := fun h => by
    have hb := hs.bitmap (hk ▸ h)
    exact {
      length_eq := by rw [hp, hz]; exact hb.length_eq
      size_eq := by rw [hz, hst, hh]; exact hb.size_eq
      size_le := by rw [hz, hc]; exact hb.size_le
      width_pos := by rw [hw]; exact hb.width_pos
      height_pos := by rw [hh]; exact hb.height_pos
      stride_bits1 := by rw [hk, hst, hw]; exact hb.stride_bits1
      stride_raw := by rw [hk, hst, hw, hc]; exact hb.stride_raw
      padding_zero := by rw [hk, hh, hp, hst, hw]; exact hb.padding_zero }
  result1_byte := hr

theorem storeReg_inv {s : State} (hs : s.Inv) (r : RegName) (v : Word) : (storeReg r v s).Inv := by
  have hmask : ∀ f : Word, f &&& formatMask &&& ~~~formatMask = 0 := fun f => by
    rw [BitVec.and_assoc, BitVec.and_not_self]; simp
  refine inv_of_same hs (by simp) (by simpa using ⟨hs.src_wf, hs.src_below⟩) ?_
    (by simpa using hs.result1_byte) (by simp) (by simp) (by simp) (by simp) (by simp) (by simp) (by simp)
  rw [storeReg_format]
  split
  · exact hmask v
  · exact hs.format_reserved

theorem srcWrite_inv {s : State} (hs : s.Inv) (a : Nat) (v : Byte) : (srcWrite a v s).Inv := by
  refine inv_of_same hs (by simp) ?_ (by simpa using hs.format_reserved)
    (by simpa using hs.result1_byte) (by simp) (by simp) (by simp) (by simp) (by simp) (by simp) (by simp)
  rw [srcWrite_src, srcWrite_cfg]
  split
  · next h => exact ⟨write_wf _ _ _ hs.src_wf, write_below _ _ _ _ hs.src_below h⟩
  · exact ⟨hs.src_wf, hs.src_below⟩

theorem reply_inv {s : State} (hs : s.Inv) (r : Reply) : (reply r s).Inv :=
  inv_of_same hs rfl ⟨hs.src_wf, hs.src_below⟩ hs.format_reserved hs.result1_byte rfl rfl rfl rfl rfl rfl rfl

theorem withScript_inv {s : State} (hs : s.Inv) (rest : List HostEvent) : (withScript rest s).Inv :=
  inv_of_same hs rfl ⟨hs.src_wf, hs.src_below⟩ hs.format_reserved hs.result1_byte rfl rfl rfl rfl rfl rfl rfl

theorem setResult0_inv {s : State} (hs : s.Inv) (v : Word) : (setResult0 v s).Inv :=
  inv_of_same hs rfl ⟨hs.src_wf, hs.src_below⟩ hs.format_reserved hs.result1_byte rfl rfl rfl rfl rfl rfl rfl

theorem setResult1_inv {s : State} (hs : s.Inv) (v : Byte) : (setResult1 (v.setWidth 32) s).Inv := by
  refine inv_of_same hs rfl ⟨hs.src_wf, hs.src_below⟩ hs.format_reserved ?_ rfl rfl rfl rfl rfl rfl rfl
  have := v.isLt
  simp only [setResult1_result1, BitVec.toNat_setWidth]; omega

/-- A new bitmap meets the invariant when its bytes fill its rows, it fits, its stride is its kind's, and
its padding is zero (R70, R79 (a)). -/
theorem newPB_inv {s : State} (hs : s.Inv) (he : s.err = none) {kind : PbKind} {w h : Word}
    {stride : Nat} {bytes : List Byte} (hkind : kind ≠ .absent) (hw : 1 ≤ w.toNat) (hh : 1 ≤ h.toNat)
    (hfit : stride * h.toNat ≤ s.cfg.pbCap) (hlen : bytes.length = stride * h.toNat)
    (hbits : kind = .bits1 → stride = stride1 w.toNat ∧
      ∀ y < h.toNat, ∀ x, w.toNat ≤ x → x < 8 * stride1 w.toNat →
        getBit bytes (stride1 w.toNat) x y = false)
    (hraw : kind = .raw → ∃ n, (n = 3 ∨ n = 4 ∨ n = s.cfg.bpp16) ∧ stride = w.toNat * n) :
    (newPB kind w h stride bytes s).Inv := by
  obtain ⟨hst, hsz⟩ := stored_size hs.cfg_wf.2.2.2.1 hh hfit
  exact {
    cfg_wf := hs.cfg_wf
    src_wf := hs.src_wf
    src_below := hs.src_below
    format_reserved := hs.format_reserved
    err_absent := fun h => absurd he h
    absent_zero := fun h => absurd h hkind
    result1_byte := hs.result1_byte
    bitmap := fun _ => {
      length_eq := hlen.trans hsz.symm
      size_eq := by simp only [newPB_pbSize, newPB_pbStride, newPB_pbHeight]; rw [hsz, hst]
      size_le := by simp only [newPB_pbSize, newPB_cfg]; rw [hsz]; exact hfit
      width_pos := hw
      height_pos := hh
      stride_bits1 := fun hk => hst.trans (hbits hk).1
      stride_raw := fun hk => by
        obtain ⟨n, hn, hns⟩ := hraw hk
        exact ⟨n, hn, hst.trans hns⟩
      padding_zero := fun hk => by
        obtain ⟨hs1, hpad⟩ := hbits hk
        simp only [newPB_pbHeight, newPB_pb, newPB_pbStride, newPB_pbWidth, hst]
        rw [hs1] at hlen ⊢
        exact (padding_iff hw hlen).mpr hpad } }

/-- The padding of a monochrome bitmap is clear (R67). -/
theorem getBit_packMono_padding (rd : Nat → Byte) {w h x y : Nat} (hy : y < h) (hx : w ≤ x)
    (hx8 : x < 8 * stride1 w) : getBit (packMono rd w h) (stride1 w) x y = false := by
  have hl := le_stride1 w
  have hlt := stride1_lt w
  have hk : x / 8 < stride1 w := by omega
  rw [getBit_eq, show bitOffset (stride1 w) x y = y * stride1 w + x / 8 from rfl,
    packMono_getElem? rd w h hy hk, if_pos (by omega), Option.getD_some, BitVec.getLsbD_and,
    tailMask_getLsbD w _ (by omega)]
  have : ¬ stride1 w * 8 - w ≤ 7 - x % 8 := by omega
  simp [this]

/-- The padding of a classified bitmap is clear (R68 (c)). -/
theorem getBit_packClassify_padding (rd : Nat → Byte) {w h n x y : Nat} (hy : y < h) (hx : w ≤ x)
    (hx8 : x < 8 * stride1 w) : getBit (packClassify rd w h n) (stride1 w) x y = false := by
  rw [getBit_packClassify rd w h n hx8 hy]
  simp [Nat.not_lt.mpr hx]

/-- The bytes per pixel of a raw strategy are those of R41. -/
theorem rawCopy_bpp {p : Config.Params} {v : Word} {n : Nat}
    (h : formatStrategy p v = some (.rawCopy n)) : n = 3 ∨ n = 4 ∨ n = p.bpp16 := by
  unfold formatStrategy at h
  generalize formatDepth v = d, formatLayout v = l, formatRaw v = r at h
  unfold strategy at h
  split at h <;> simp_all [bpp]
  split at h <;> simp_all

end Sys2Proof.Machine
end

