-- ==== Sys2Proof/Laws/PerInstr.lean ====
section
/-! SUPPORT. Facts proved command by command: the word of every well-formed command matches its row of
the opcode map (R56). -/

namespace Sys2Proof.Laws.TableRow

/-- The word of a well-formed command agrees with its row under the row's mask (R56). -/
def Statement (i : Instr) : Prop :=
  i.wf = true → encode i &&& (opcodeRow i).mask = (opcodeRow i).matchWord

theorem pack : Statement .pack := fun _ => by decide

theorem rotate (angle : Nat) : Statement (.rotate angle) := fun h => by
  have hw : angle < 2 ^ 16 := by simpa [Instr.wf] using h
  apply BitVec.eq_of_toNat_eq
  rw [BitVec.toNat_and, encode_rotate_toNat angle hw]
  show (angle * 65536 + 2) &&& (2 ^ 16 - 1) = 2
  rw [Nat.and_two_pow_sub_one_eq_mod]; omega

theorem stride : Statement .stride := fun _ => by decide

theorem bitaddr : Statement .bitaddr := fun _ => by decide

theorem tailmask : Statement .tailmask := fun _ => by decide

theorem clear : Statement .clear := fun _ => by decide

end Sys2Proof.Laws.TableRow
end

