-- ==== Sys2Proof/Laws/Transactions.lean ====
section
/-! SUPPORT. What a step and each kind of host event can answer: one lemma for each. -/

namespace Sys2Proof.Machine

/-- A step with an event pending is that event on the rest of the script. -/
theorem step_cons {s : State} {e : HostEvent} {rest : List HostEvent} (h : s.script = e :: rest) :
    step s = hostEvent e (withScript rest s) := by
  simp [step, nextEvent, h]

/-- A step with nothing pending changes nothing. -/
theorem step_nil {s : State} (h : s.script = []) : step s = .next s := by
  simp [step, nextEvent, h]

/-- What a step can be: nothing pending, or the next event performed. -/
theorem step_cases {s t : State} (h : step s = .next t) :
    (s.script = [] ∧ t = s) ∨
    ∃ e rest, s.script = e :: rest ∧ hostEvent e (withScript rest s) = .next t := by
  cases hs : s.script with
  | nil => rw [step_nil hs] at h; cases h; exact .inl ⟨rfl, rfl⟩
  | cons e rest => rw [step_cons hs] at h; exact .inr ⟨e, rest, rfl, h⟩

/-- An `ILLEGAL` word: nothing in the error state, the error entry outside it (R57, R91). -/
theorem execIllegal_cases (s : State) :
    (s.err ≠ none ∧ execIllegal s = .next s) ∨
    (s.err = none ∧ execIllegal s = .next (enterError .invalidArgument s)) := by
  unfold execIllegal
  cases he : s.err with
  | none => exact .inr ⟨rfl, by rw [unlessError_of_none he]; rfl⟩
  | some e => exact .inl ⟨by simp, by rw [unlessError_of_error he]⟩

/-- A write to `CMD` (R91): the command its word decodes to, or the `ILLEGAL` word's effect. -/
theorem cmdWrite_cases (w : Word) (s : State) :
    (∃ i, decode w = .ok i ∧ cmdWrite w s = exec i s) ∨
    (∃ r, decode w = .error r ∧ cmdWrite w s = execIllegal s) := by
  unfold cmdWrite
  cases hd : decode w with
  | ok i => exact .inl ⟨i, rfl, rfl⟩
  | error r => exact .inr ⟨r, rfl, rfl⟩

/-- A register write (R34): `CMD` executes the word; another register stores it or ignores it. -/
theorem hostRegWrite_cases (i : Nat) (v : Word) (s : State) :
    (i = 4 ∧ hostRegWrite i v s = cmdWrite v s) ∨
    (i ≠ 4 ∧ ∃ r, RegName.ofIndex i = some r ∧ hostRegWrite i v s = .next (storeReg r v s)) ∨
    (12 ≤ i ∧ hostRegWrite i v s = .next s) := by
  unfold hostRegWrite
  cases hr : RegName.ofIndex i with
  | none =>
    refine .inr (.inr ⟨?_, rfl⟩)
    by_contra hlt
    have : i < 12 := by omega
    interval_cases i <;> simp [RegName.ofIndex] at hr
  | some r =>
    have hi := index_of_ofIndex hr
    cases r <;> simp only [RegName.index] at hi <;> subst hi <;> simp

end Sys2Proof.Machine
end

