-- ==== Sys2Proof/Tests/Slice0.lean ====
section
/-! SUPPORT. Small tests, their expected values taken from the tables of `95_test_vectors.md` (the
section is named at each), and for every statement with hypotheses a concrete state and operands that
meet them. -/

open Sys2Proof Sys2Proof.Machine Sys2Proof.Claims

namespace Sys2Proof.Tests

/-! ### Helpers -/

/-- The bytes placed at offsets from 0 up. -/
def cells (bytes : List Byte) : Memory := bytes.zipIdx.map fun p => (p.2, p.1)

/-- After reset, operand registers and source bytes set by the host. -/
def loaded (w h fmt : Word) (bytes : List Byte) : State :=
  { State.reset with width := w, height := h, format := fmt, src := cells bytes }

/-- After reset, a 1-bit bitmap. -/
def holding (w h stride size : Word) (bytes : List Byte) : State :=
  { State.reset with
    pbKind := .bits1, pbWidth := w, pbHeight := h, pbStride := stride, pbSize := size, pb := bytes }

/-- The state a result is, when it is a next state. -/
def ok (r : Result) : Option State :=
  match r with
  | .next t => some t
  | .fault _ => none
  | .refused _ => none

/-- The state after a command. -/
def after (i : Instr) (s : State) : State := ((ok (exec i s)).getD s)

/-- What the tests look at. -/
structure View where
  status : Word
  width : Word
  height : Word
  stride : Word
  size : Word
  bytes : List Byte
  deriving DecidableEq, Repr

/-- `STATUS`, the descriptors and the bytes after a result. -/
def view (r : Result) : Option View :=
  (ok r).map fun t => ⟨regRead t 5, t.pbWidth, t.pbHeight, t.pbStride, t.pbSize, t.pb⟩

/-- `RESULT0` and `RESULT1`. -/
def results (r : Result) : Option (Word × Word) := (ok r).map fun t => (t.result0, t.result1)

/-- The host's next event is a transaction. -/
def asks (t : Transaction) (s : State) : State := { s with script := [.transaction t] }

/-- The 10 by 3 image of section 2.3. -/
def image : State := loaded 10 3 0x00000001 [0x5A, 0x7F, 0xFF, 0xBF, 0x00, 0x12]

/-- Its bitmap, 10 by 3 (section 2.3). -/
def bitmap : State := holding 10 3 2 6 [0xA5, 0x80, 0x00, 0x40, 0xFF, 0xC0]

/-- The error state. -/
def failed : State := erred .outOfMemory State.reset

/-! ### Well-formedness: an ill-formed term for each check -/

theorem test_wf_refuses_wide_angle : Instr.wf (.rotate 65536) = false := by decide
theorem test_wf_accepts_last_angle : Instr.wf (.rotate 65535) = true := by decide
theorem test_wf_config_refuses_no_source : ¬ Config.Params.wf ⟨0, 1, 1⟩ := by decide
theorem test_wf_config_refuses_large_source : ¬ Config.Params.wf ⟨2 ^ 32 + 1, 1, 1⟩ := by decide
theorem test_wf_config_refuses_no_bitmap : ¬ Config.Params.wf ⟨1, 0, 1⟩ := by decide
theorem test_wf_config_refuses_large_bitmap : ¬ Config.Params.wf ⟨1, 2 ^ 32, 1⟩ := by decide
theorem test_wf_config_refuses_no_pixel : ¬ Config.Params.wf ⟨1, 1, 0⟩ := by decide
theorem test_wf_config_refuses_wide_pixel : ¬ Config.Params.wf ⟨1, 1, 5⟩ := by decide
theorem test_wf_memory_refuses_repeats : Memory.wf [(3, 1), (3, 2)] = false := by decide
theorem test_wf_memory_refuses_falls : Memory.wf [(3, 1), (2, 2)] = false := by decide

/-! ### Decoding: the words written out from R54, R56 and R58 -/

/-- `OPC = 0x01`, `RSV = 0`, `IMM16 = 0`. -/
theorem test_decode_pack : decode 0b0000000000000000_00000000_00000001 = .ok .pack := by decide
/-- `OPC = 0x02`, `RSV = 0`, `IMM16 = 0x010E`. -/
theorem test_decode_rotate : decode 0b0000000100001110_00000000_00000010 = .ok (.rotate 270) := by decide
/-- `OPC = 0x02`, `RSV = 0`, `IMM16 = 0xFFFF`: not read as -1 (section 2.8). -/
theorem test_decode_rotate_last :
    decode 0b1111111111111111_00000000_00000010 = .ok (.rotate 65535) := by decide
/-- `OPC = 0x03`. -/
theorem test_decode_stride : decode 0b0000000000000000_00000000_00000011 = .ok .stride := by decide
/-- `OPC = 0x04`. -/
theorem test_decode_bitaddr : decode 0b0000000000000000_00000000_00000100 = .ok .bitaddr := by decide
/-- `OPC = 0x05`. -/
theorem test_decode_tailmask : decode 0b0000000000000000_00000000_00000101 = .ok .tailmask := by decide
/-- `OPC = 0x06`. -/
theorem test_decode_clear : decode 0b0000000000000000_00000000_00000110 = .ok .clear := by decide
/-- The illegal words of section 2.9. -/
theorem test_decode_illegal :
    [0x00000000#32, 0x00000007, 0x000000FF, 0x00000101, 0x00000102, 0x00010001, 0x00010003,
      0x00010006].all (fun w => match decode w with | .ok _ => false | .error _ => true) = true := by
  decide
/-- `RSV` set from its last bit (R57). -/
theorem test_decode_reserved : decode 0x00008002 = .error .reservedBits := by decide
/-- The rows of R56 as the opcode table numbers their bits. -/
theorem test_decode_table_word : decodeTableWord 32 0x005A0002 = some (.rotate 90) := by decide
/-- No word is of two rows: the rows differ in a bit that both masks fix. -/
theorem test_opcode_rows_apart : opcodeMap.Pairwise
    (fun a b => a.matchWord &&& (a.mask &&& b.mask) ≠ b.matchWord &&& (a.mask &&& b.mask)) := by decide
/-- There are six rows, one for each command of R56. -/
theorem test_opcode_rows : opcodeMap.map (fun r => r.matchWord) = [1, 2, 3, 4, 5, 6] := by decide

/-! ### PACK (sections 2.2 to 2.6) -/

/-- Section 2.3, 10 by 3. -/
theorem test_pack_mono : view (exec .pack image) =
    some ⟨0x10, 10, 3, 2, 6, [0xA5, 0x80, 0x00, 0x40, 0xFF, 0xC0]⟩ := by decide +kernel
/-- Section 2.4, 3 by 2 RGB. -/
theorem test_pack_classify : view (exec .pack (loaded 3 2 0x00000108
    [0, 0, 0, 0, 0, 1, 0xFF, 0xFF, 0xFF, 0, 0, 0, 1, 0, 0, 0, 0, 0])) =
    some ⟨0x10, 3, 2, 1, 2, [0x80, 0xA0]⟩ := by decide +kernel
/-- Section 2.5, 3 by 2 at depth 16. -/
theorem test_pack_raw : view (exec .pack (loaded 3 2 0x00000110
    [1, 2, 3, 4, 5, 6, 7, 8, 9, 10, 11, 12])) =
    some ⟨0x20, 3, 2, 6, 12, [1, 2, 3, 4, 5, 6, 7, 8, 9, 10, 11, 12]⟩ := by decide +kernel
/-- Section 2.6: format before geometry, zero geometry, and two products that would wrap. -/
theorem test_pack_failures :
    [(0#32, 0#32, 0x00000308#32), (0, 5, 1), (5, 0, 1), (8193, 1, 1), (1025, 1, 0x208),
      (0xFFFFFFFF, 0xFFFFFFFF, 1), (0x80000000, 32, 1)].map
      (fun p => view (exec .pack (loaded p.1 p.2.1 p.2.2 []))) =
    [1, 3, 3, 2, 2, 2, 2].map fun code => some ⟨code, 0, 0, 0, 0, []⟩ := by decide +kernel

/-! ### ROTATE (sections 2.7, 2.8) -/

/-- Section 2.7, 10 by 3 by 90 and by 270 degrees. -/
theorem test_rotate_quarter : view (exec (.rotate 90) bitmap) =
      some ⟨0x10, 3, 10, 1, 10, [0xA0, 0x80, 0xA0, 0x80, 0x80, 0xA0, 0x80, 0xA0, 0xA0, 0xC0]⟩ ∧
    view (exec (.rotate 270) bitmap) =
      some ⟨0x10, 3, 10, 1, 10, [0x60, 0xA0, 0xA0, 0x20, 0xA0, 0x20, 0x20, 0xA0, 0x20, 0xA0]⟩ := by
  decide +kernel
/-- Section 2.7, 10 by 3 by 180 degrees: not a reversal of the stored bits. -/
theorem test_rotate_half : view (exec (.rotate 180) bitmap) =
    some ⟨0x10, 10, 3, 2, 6, [0xFF, 0xC0, 0x80, 0x00, 0x69, 0x40]⟩ := by decide +kernel
/-- Section 2.8: the angle check comes before the kind check, the kind check before the angle 0. -/
theorem test_rotate_failures :
    [view (exec (.rotate 45) bitmap), view (exec (.rotate 360) bitmap),
      view (exec (.rotate 45) State.reset), view (exec (.rotate 0) State.reset)] =
    [3, 3, 3, 1].map fun code => some ⟨code, 0, 0, 0, 0, []⟩ := by decide +kernel

/-! ### The utilities and CLEAR (sections 2.1, 2.10) -/

/-- Section 2.1, and `RESULT1` kept. -/
theorem test_stride :
    [0#32, 1, 8, 9, 0xFFFFFFF8, 0xFFFFFFF9].map
      (fun a => results (exec .stride { State.reset with arg := a, result1 := 5 })) =
    [0#32, 1, 1, 2, 0x1FFFFFFF, 0x20000000].map fun r => some (r, 5) := by decide
/-- Section 2.1. -/
theorem test_bitaddr :
    [0#32, 7, 8, 9, 0xFFFFFFFF].map (fun a => results (exec .bitaddr { State.reset with arg := a })) =
    [(0#32, 0x80#32), (0, 0x01), (1, 0x80), (1, 0x40), (0x1FFFFFFF, 0x01)].map some := by decide
/-- Section 2.1. -/
theorem test_tailmask :
    [0#32, 1, 7, 8, 10, 0xFFFFFFFF].map
      (fun a => results (exec .tailmask { State.reset with arg := a, result1 := 5 })) =
    [0xFF#32, 0x80, 0xFE, 0xFF, 0xC0, 0xFE].map fun r => some (r, 5) := by decide
/-- Section 2.10: in the error state STRIDE is ignored. -/
theorem test_stride_ignored : ok (exec .stride { failed with arg := 100, result0 := 7 }) =
    some { failed with arg := 100, result0 := 7 } := by decide
/-- Section 2.10: CLEAR outside the error state drops the bitmap. -/
theorem test_clear_drops : view (exec .clear bitmap) = some ⟨0x00, 0, 0, 0, 0, []⟩ := by decide
/-- Section 2.10: CLEAR keeps `RESULT0`. -/
theorem test_clear_leaves_error : (ok (exec .clear { failed with result0 := 7 })).map
    (fun t => (regRead t 5, t.result0)) = some (0x00, 7) := by decide

/-! ### Transactions (sections 2.2, 2.10, 2.11) -/

/-- Section 2.2: the reserved bits of `FORMAT` are not stored. -/
theorem test_format_masked : (ok (step (asks (.regWrite 2 0xFFFFFFFF) State.reset))).map
    (fun t => regRead t 2) = some 0x000103FF := by decide
/-- Section 2.11: `STATUS` is read-only. -/
theorem test_status_read_only : (ok (step (asks (.regWrite 5 0x10) State.reset))).map
    (fun t => regRead t 5) = some 0 := by decide
/-- Section 2.11: the last byte of `SRC`, and the first beyond it. -/
theorem test_src_ends :
    (ok (step (asks (.srcWrite 4095 0x12) State.reset))).map (fun t => srcRead t 4095) = some 0x12 ∧
    (ok (step (asks (.srcWrite 4096 0x12) State.reset))).map (fun t => srcRead t 4096) = some 0 := by
  decide +kernel
/-- Section 2.11: reads inside and beyond the bitmap. -/
theorem test_pb_reads : [0, 1, 2, 1023, 5000].map (pbRead (holding 2 2 1 2 [0x80, 0x40])) =
    [0x80, 0x40, 0x00, 0x00, 0x00] := by decide
/-- Section 2.10: only the exact word of CLEAR clears. -/
theorem test_error_state_ignores : ok (step (asks (.regWrite 4 0x00010006) failed)) = some failed := by
  decide
/-- Memory keeps its canonical form and the later of two writes. -/
theorem test_memory_write : Memory.write (Memory.write (Memory.write [] 5 1) 2 9) 5 3 = [(2, 9), (5, 3)] :=
  by decide

/-! ### Witnesses: states and operands that meet the hypotheses of each statement -/

/-- A raw bitmap, 2 by 1 at three bytes a pixel. -/
def rawBitmap : State :=
  { holding 2 1 6 6 [1, 2, 3, 4, 5, 6] with pbKind := .raw }

/-- The 10 by 3 image with other bits beyond its width. -/
def noisyImage : State := loaded 10 3 0x00000001 [0x5A, 0x40, 0xFF, 0x80, 0x00, 0x3F]

/-- A 2 by 1 RGBA image, and one that differs in its alpha. -/
def clear8 : State := loaded 2 1 0x00000208 [0, 0, 0, 0, 1, 2, 3, 4]
def opaque8 : State := loaded 2 1 0x00000208 [0, 0, 0, 255, 1, 2, 3, 255]

/-- A 10 by 2 image, its first row all light and its second all dark. -/
def lightDark : State := loaded 10 2 0x00000001 [0xFF, 0xC0, 0x00, 0x3F]

/-- A next state is the state after. -/
theorem exec_after {i : Instr} {s : State} (h : (ok (exec i s)).isSome = true) :
    exec i s = .next (after i s) := by
  unfold after
  cases hx : exec i s with
  | next t => rfl
  | fault r => rw [hx] at h; cases h
  | refused r => rw [hx] at h; cases h

theorem reset_inv : State.reset.Inv where
  cfg_wf := by decide
  src_wf := rfl
  src_below := rfl
  format_reserved := by decide
  err_absent := fun _ => rfl
  absent_zero := fun _ => ⟨rfl, rfl, rfl, rfl, rfl⟩
  bitmap := fun h => absurd rfl h
  result1_byte := by decide

theorem bitmap_inv : bitmap.Inv where
  cfg_wf := by decide
  src_wf := rfl
  src_below := rfl
  format_reserved := by decide
  err_absent := fun h => absurd rfl h
  absent_zero := fun h => absurd h (by decide)
  result1_byte := by decide
  bitmap := fun _ => {
    length_eq := rfl
    size_eq := rfl
    size_le := by decide
    width_pos := by decide
    height_pos := by decide
    stride_bits1 := fun _ => rfl
    stride_raw := fun h => absurd h (by decide)
    padding_zero := by
      intro _ y hy b hb
      replace hy : y < 3 := hy
      have : y = 0 ∨ y = 1 ∨ y = 2 := by omega
      obtain rfl | rfl | rfl := this <;> cases hb <;> decide }

theorem rawBitmap_inv : rawBitmap.Inv where
  cfg_wf := by decide
  src_wf := rfl
  src_below := rfl
  format_reserved := by decide
  err_absent := fun h => absurd rfl h
  absent_zero := fun h => absurd h (by decide)
  result1_byte := by decide
  bitmap := fun _ => {
    length_eq := rfl
    size_eq := rfl
    size_le := by decide
    width_pos := by decide
    height_pos := by decide
    stride_bits1 := fun h => absurd h (by decide)
    stride_raw := fun _ => ⟨3, .inl rfl, rfl⟩
    padding_zero := fun h => absurd h (by decide) }

theorem witness_DecodeOfEncode : Instr.wf (.rotate 65535) = true ∧ Instr.wf .clear = true := by decide

theorem witness_EncodeOfDecode : decode 0xFFFF0002 = .ok (.rotate 65535) := by decide

theorem witness_DecodeMatchesOpcodeRows :
    decode 0xFFFF0002 = .ok (.rotate 65535) ∧
    opcodeRow (.rotate 0) ∈ opcodeMap ∧
    0xFFFF0002 &&& (opcodeRow (.rotate 0)).mask = (opcodeRow (.rotate 0)).matchWord := by decide

theorem witness_IllegalWordsExactly :
    (next (asks (.regWrite 4 0) State.reset) (.regWrite 4 0) [] ∧ decode 0 = .error .opcode ∧
      (asks (.regWrite 4 0) State.reset).err = none) ∧
    (next (asks (.regWrite 4 0x00010006) failed) (.regWrite 4 0x00010006) [] ∧
      decode 0x00010006 = .error .immediate ∧ (asks (.regWrite 4 0x00010006) failed).err ≠ none) :=
  ⟨⟨rfl, by decide, rfl⟩, ⟨rfl, by decide, by decide⟩⟩

theorem witness_StepRunsDecodedCommand :
    next (asks (.regWrite 4 0x005A0002) bitmap) (.regWrite 4 0x005A0002) [] ∧
      decode 0x005A0002 = .ok (.rotate 90) := ⟨rfl, by decide⟩

theorem witness_PlacedCommandRuns : Instr.wf (.rotate 65535) = true := by decide

theorem witness_IdleStepChangesNothing : bitmap.script = [] := rfl

theorem witness_RegisterTransactions (i : Nat) (v : Word) :
    next (asks (.regRead i) bitmap) (.regRead i) [] ∧
      next (asks (.regWrite i v) bitmap) (.regWrite i v) [] := ⟨rfl, rfl⟩

theorem witness_StatusWordFields : (State.reset.Inv ∧ bitmap.Inv ∧ rawBitmap.Inv) ∧
    next (asks (.regWrite 5 0x10) bitmap) (.regWrite 5 0x10) [] :=
  ⟨⟨reset_inv, bitmap_inv, rawBitmap_inv⟩, rfl⟩

theorem witness_SourceTransactions :
    (next (asks (.srcWrite 4095 7) State.reset) (.srcWrite 4095 7) [] ∧ 4095 < State.reset.cfg.srcCap) ∧
    (next (asks (.srcWrite 4096 7) State.reset) (.srcWrite 4096 7) [] ∧
      State.reset.cfg.srcCap ≤ 4096) ∧
    next (asks (.srcRead 4096) State.reset) (.srcRead 4096) [] :=
  ⟨⟨rfl, by decide⟩, ⟨rfl, by decide⟩, rfl⟩

/-- A state that meets the invariant meets it whatever the host does next. -/
theorem asks_inv {s : State} (h : s.Inv) (t : Transaction) : (asks t s).Inv where
  cfg_wf := h.cfg_wf
  src_wf := h.src_wf
  src_below := h.src_below
  format_reserved := h.format_reserved
  err_absent := h.err_absent
  absent_zero := h.absent_zero
  result1_byte := h.result1_byte
  bitmap := fun hk => {
    length_eq := (h.bitmap hk).length_eq
    size_eq := (h.bitmap hk).size_eq
    size_le := (h.bitmap hk).size_le
    width_pos := (h.bitmap hk).width_pos
    height_pos := (h.bitmap hk).height_pos
    stride_bits1 := (h.bitmap hk).stride_bits1
    stride_raw := (h.bitmap hk).stride_raw
    padding_zero := (h.bitmap hk).padding_zero }

theorem witness_BitmapReadsAreGated :
    ((asks (.pbRead 5) bitmap).Inv ∧ next (asks (.pbRead 5) bitmap) (.pbRead 5) [] ∧
      bitmap.pbKind ≠ .absent ∧ 5 < bitmap.pbSize.toNat) ∧
    ((asks (.pbRead 6) bitmap).Inv ∧ next (asks (.pbRead 6) bitmap) (.pbRead 6) [] ∧
      bitmap.pbSize.toNat ≤ 6) ∧
    ((asks (.pbRead 0) State.reset).Inv ∧ next (asks (.pbRead 0) State.reset) (.pbRead 0) [] ∧
      State.reset.pbKind = .absent) :=
  ⟨⟨asks_inv bitmap_inv _, rfl, by decide, by decide⟩, ⟨asks_inv bitmap_inv _, rfl, by decide⟩,
    ⟨asks_inv reset_inv _, rfl, rfl⟩⟩

theorem witness_ResetValues :
    4095 < Config.testVector.srcCap ∧
    ({ bitmap with script := [.reset] } : State).script = .reset :: [] ∧
    (step bitmap = .next bitmap ∧ bitmap.script.head? ≠ some .reset ∧
      ∀ v, bitmap.script.head? ≠ some (.transaction (.srcWrite 0 v))) :=
  ⟨by decide, rfl, rfl, by decide, fun _ h => nomatch h⟩

theorem witness_BitmapReplacedAtOnce : 2 ^ 32 - 1 < 2 ^ 32 ∧ (2 ^ 32 - 1) * (1#32).toNat < 2 ^ 32 := by
  decide

theorem witness_TailMaskIsValidBits : 8 % 8 = 0 ∧ 15 % 8 ≠ 0 ∧ 7 < 8 := by decide

theorem witness_CommandDispatch :
    (next (asks (.regWrite 4 0x00000006) failed) (.regWrite 4 0x00000006) [] ∧
      (asks (.regWrite 4 0x00000006) failed).err ≠ none) ∧
    (next (asks (.regWrite 4 0x00010006) failed) (.regWrite 4 0x00010006) [] ∧
      (asks (.regWrite 4 0x00010006) failed).err ≠ none ∧ 0x00010006#32 ≠ 0x00000006) ∧
    (next (asks (.regWrite 4 7) bitmap) (.regWrite 4 7) [] ∧ (asks (.regWrite 4 7) bitmap).err = none ∧
      decode 7 = .error .opcode) ∧
    (next (asks (.regWrite 4 6) bitmap) (.regWrite 4 6) [] ∧ (asks (.regWrite 4 6) bitmap).err = none ∧
      decode 6 = .ok .clear) :=
  ⟨⟨rfl, by decide⟩, ⟨rfl, by decide, by decide⟩, ⟨rfl, rfl, by decide⟩, ⟨rfl, rfl, by decide⟩⟩

theorem witness_FirstErrorKept :
    (asks (.regWrite 4 0) failed).err = some .outOfMemory ∧
    step (asks (.regWrite 4 0) failed) = .next failed ∧
    (asks (.regWrite 4 0) failed).script.head? ≠ some .reset ∧
    (asks (.regWrite 4 0) failed).script.head? ≠ some (.transaction (.regWrite 4 0x00000006)) :=
  ⟨rfl, rfl, by decide, by decide⟩

theorem witness_OnlyCommandsRaise :
    step (asks (.regWrite 4 0) bitmap) = .next (erred .invalidArgument bitmap) ∧
    (asks (.regWrite 4 0) bitmap).err = none ∧ (erred .invalidArgument bitmap).err ≠ none :=
  ⟨rfl, rfl, by decide⟩

/-- Both fields change at an error entry and at CLEAR; `PB_KIND` alone at PACK. -/
theorem witness_StatusFieldsChange :
    (step (asks (.regWrite 4 0) bitmap) = .next (erred .invalidArgument bitmap) ∧
      (erred .invalidArgument bitmap).err ≠ bitmap.err ∧
      (erred .invalidArgument bitmap).pbKind ≠ bitmap.pbKind) ∧
    (step (asks (.regWrite 4 6) failed) = .next (cleared failed) ∧ (cleared failed).err ≠ failed.err) ∧
    (step (asks (.regWrite 4 6) bitmap) = .next (cleared bitmap) ∧
      (cleared bitmap).pbKind ≠ bitmap.pbKind) :=
  ⟨⟨rfl, by decide, by decide⟩, ⟨rfl, by decide⟩, rfl, by decide⟩

theorem witness_ErrorsArePrecise :
    exec (.rotate 45) bitmap = .next (erred .invalidArgument bitmap) ∧ bitmap.err = none ∧
      (erred .invalidArgument bitmap).err ≠ none := ⟨rfl, rfl, by decide⟩

theorem witness_StrideResult : bitmap.err = none := rfl
theorem witness_BitaddrResult : bitmap.err = none := rfl
theorem witness_TailmaskResult : bitmap.err = none := rfl

/-- The fields each clause of the strategy table asks for, in a word of section 2.2: depth, layout
code, `RAW`. -/
def fields (v : Word) : Nat × Nat × Bool := (v.toNat % 256, v.toNat / 256 % 4, v.getLsbD 16)

theorem witness_FormatSelectsStrategy :
    fields 0x00010001 = (1, 0, true) ∧ fields 0x00000108 = (8, 1, false) ∧
    fields 0x00000208 = (8, 2, false) ∧ fields 0x00010108 = (8, 1, true) ∧
    fields 0x00010208 = (8, 2, true) ∧ fields 0x00000210 = (16, 2, false) ∧
    fields 0x00000101 = (1, 1, false) ∧ fields 0x00000008 = (8, 0, false) ∧
    fields 0x00000308 = (8, 3, false) ∧ fields 0x00000310 = (16, 3, false) ∧
    (State.reset.err = none ∧ formatStrategy State.reset.cfg State.reset.format = none) ∧
    (image.err = none ∧ formatStrategy image.cfg image.format = some .mono ∧
      exec .pack image = .next (after .pack image) ∧ (after .pack image).err = none) := by
  refine ⟨?_, ?_, ?_, ?_, ?_, ?_, ?_, ?_, ?_, ?_, ⟨rfl, ?_⟩, rfl, ?_, exec_after ?_, ?_⟩ <;>
    decide +kernel

theorem witness_PackRejectsZeroGeometry :
    (loaded 0 5 1 []).err = none ∧
    formatStrategy (loaded 0 5 1 []).cfg (loaded 0 5 1 []).format = some .mono ∧
    ((loaded 0 5 1 []).width = 0 ∧ (loaded 5 0 1 []).height = 0) := by decide

/-- Section 2.6: the source does not fit; the bitmap does not fit; and the largest frame that fits. -/
theorem witness_PackRejectsTooLarge :
    ((loaded 1025 1 0x208 []).err = none ∧ (loaded 1025 1 0x208 []).strides (1025 * 4) 129 ∧
      (loaded 1025 1 0x208 []).width ≠ 0 ∧ (loaded 1025 1 0x208 []).height ≠ 0 ∧
      (loaded 1025 1 0x208 []).cfg.srcCap < 1025 * 4 * 1) ∧
    ((loaded 8193 1 1 []).strides 1025 1025 ∧ (loaded 8193 1 1 []).cfg.pbCap < 1025 * 1) := by
  unfold State.strides; decide +kernel

/-- R63's strides of a frame 10 wide for each kind of FORMAT: monochrome, classified at 3 and 4 bytes a
pixel, raw at 3 and 4 and at depth 16. -/
theorem test_strides :
    (loaded 10 1 0x00000001 []).strides 2 2 ∧ (loaded 10 1 0x00000108 []).strides 30 2 ∧
    (loaded 10 1 0x00000208 []).strides 40 2 ∧ (loaded 10 1 0x00010108 []).strides 30 30 ∧
    (loaded 10 1 0x00010208 []).strides 40 40 ∧ (loaded 10 1 0x00000210 []).strides 20 20 := by
  refine ⟨?_, ?_, ?_, ?_, ?_, ?_⟩ <;> (unfold State.strides; decide +kernel)

/-- Pixel 9 of row 1 at stride 2 is mask 0x40 of byte 3 (R44), and `setBit` and `clearBit` change that
bit of that byte alone (R46). -/
theorem test_bit_access :
    pixelAt [0, 0, 0, 0x40] 2 9 1 = true ∧ getBit [0, 0, 0, 0x40] 2 9 1 = true ∧
    getBit [0xFF, 0xFF, 0xFF, 0xBF] 2 9 1 = false ∧
    setBit [0, 0, 0, 0] 2 9 1 = [0, 0, 0, 0x40] ∧
    clearBit [0xFF, 0xFF, 0xFF, 0xFF] 2 9 1 = [0xFF, 0xFF, 0xFF, 0xBF] := by decide

theorem packable_image : image.packable .mono := by unfold State.packable; decide

theorem witness_PackMonochrome :
    image.cfg.wf ∧ image.err = none ∧ image.format &&& 0x3FF = 0x001 ∧ image.packable .mono :=
  ⟨by decide, rfl, by decide, packable_image⟩

theorem witness_PackClassification :
    (clear8.cfg.wf ∧ clear8.err = none ∧ clear8.format &&& 0x000100FF = 0x00000008 ∧
      clear8.format &&& 0x300 = 0x200 ∧ clear8.packable (.classify 4)) ∧
    ((loaded 3 2 0x108 []).format &&& 0x000100FF = 0x00000008 ∧
      (loaded 3 2 0x108 []).format &&& 0x300 = 0x100 ∧ (loaded 3 2 0x108 []).packable (.classify 3)) := by
  unfold State.packable; decide

theorem witness_PackRawCopy :
    (image.cfg.wf ∧ image.err = none) ∧
    ((loaded 2 1 0x00010108 []).format &&& 0x000103FF = 0x00010108 ∧
      (loaded 2 1 0x00010108 []).packable (.rawCopy 3)) ∧
    ((loaded 2 2 0x00010208 []).format &&& 0x000103FF = 0x00010208 ∧
      (loaded 2 2 0x00010208 []).packable (.rawCopy 4)) ∧
    ((loaded 3 2 0x00000210 []).format &&& 0xFF = 0x10 ∧
      (loaded 3 2 0x00000210 []).format &&& 0x300 ≠ 0x300 ∧
      (loaded 3 2 0x00000210 []).packable (.rawCopy 2)) := by
  unfold State.packable; decide

theorem witness_PackSucceedsExactly : image.err = none ∧ image.strides 2 2 := by
  unfold State.strides; decide

theorem exec_pack_image : exec .pack image = .next (after .pack image) := exec_after (by decide +kernel)

theorem exec_pack_noisy : exec .pack noisyImage = .next (after .pack noisyImage) :=
  exec_after (by decide +kernel)

/-- The same operands and the same first six bytes, after other commands. -/
theorem witness_PackDependsOnOperandsOnly :
    let s' : State := { bitmap with width := 10, height := 3, format := 1, src := image.src, result0 := 9 }
    image.cfg = s'.cfg ∧ image.err = none ∧ s'.err = none ∧ image.width = s'.width ∧
    image.height = s'.height ∧ image.format = s'.format ∧
    (∀ ss ds : Nat, image.strides ss ds →
      ∀ a < ss * image.height.toNat, srcRead image a = srcRead s' a) ∧
    exec .pack image = .next (after .pack image) ∧ exec .pack s' = .next (after .pack s') :=
  ⟨rfl, rfl, rfl, rfl, rfl, rfl, fun _ _ _ _ _ => rfl, exec_pack_image, exec_after (by decide +kernel)⟩

theorem witness_MonochromeIgnoresGarbageBits :
    image.cfg = noisyImage.cfg ∧ image.err = none ∧ noisyImage.err = none ∧
    image.width = noisyImage.width ∧ image.height = noisyImage.height ∧
    image.format = noisyImage.format ∧ image.packable .mono ∧
    (∀ y < image.height.toNat, ∀ x < image.width.toNat,
      (srcRead image (y * ((image.width.toNat + 7) / 8) + x / 8)).getLsbD (7 - x % 8) =
        (srcRead noisyImage (y * ((image.width.toNat + 7) / 8) + x / 8)).getLsbD (7 - x % 8)) ∧
    exec .pack image = .next (after .pack image) ∧
    exec .pack noisyImage = .next (after .pack noisyImage) :=
  ⟨rfl, rfl, rfl, rfl, rfl, rfl, packable_image, by decide +kernel, exec_pack_image, exec_pack_noisy⟩

theorem clear8_read (a : Nat) (h : a % 4 ≠ 3) : srcRead clear8 a = srcRead opaque8 a := by
  by_cases h8 : a < 8
  · have : a = 0 ∨ a = 1 ∨ a = 2 ∨ a = 4 ∨ a = 5 ∨ a = 6 := by omega
    obtain rfl | rfl | rfl | rfl | rfl | rfl := this <;> rfl
  · have hne : a ≠ 0 ∧ a ≠ 1 ∧ a ≠ 2 ∧ a ≠ 3 ∧ a ≠ 4 ∧ a ≠ 5 ∧ a ≠ 6 ∧ a ≠ 7 := by omega
    have e1 : Memory.read? clear8.src a = none := by
      simp [clear8, loaded, cells, Memory.read?, hne]
    have e2 : Memory.read? opaque8.src a = none := by
      simp [opaque8, loaded, cells, Memory.read?, hne]
    unfold srcRead
    rw [e1, e2]
    rfl

theorem witness_ClassificationIgnoresAlpha :
    clear8.cfg = opaque8.cfg ∧ clear8.err = none ∧ opaque8.err = none ∧ clear8.width = opaque8.width ∧
    clear8.height = opaque8.height ∧ clear8.format = opaque8.format ∧ clear8.packable (.classify 4) ∧
    (∀ a, a % 4 ≠ 3 → srcRead clear8 a = srcRead opaque8 a) ∧
    exec .pack clear8 = .next (after .pack clear8) ∧
    exec .pack opaque8 = .next (after .pack opaque8) :=
  ⟨rfl, rfl, rfl, rfl, rfl, rfl, witness_PackClassification.1.2.2.2.2, clear8_read,
    exec_after (by decide +kernel), exec_after (by decide +kernel)⟩

theorem witness_LightAndDarkRows :
    lightDark.packable .mono ∧ lightDark.err = none ∧
    exec .pack lightDark = .next (after .pack lightDark) ∧
    2 = (lightDark.width.toNat + 7) / 8 ∧
    (0 < lightDark.height.toNat ∧ 1 < 2 ∧ ∀ x < lightDark.width.toNat,
      (srcRead lightDark (0 * 2 + x / 8)).getLsbD (7 - x % 8) = true) ∧
    (1 < lightDark.height.toNat ∧ 1 < 2 ∧ ∀ x < lightDark.width.toNat,
      (srcRead lightDark (1 * 2 + x / 8)).getLsbD (7 - x % 8) = false) :=
  ⟨by unfold State.packable; decide, rfl, exec_after (by decide +kernel), rfl, by decide +kernel,
    by decide +kernel⟩

theorem witness_RotateRejectsBadAngle : bitmap.err = none ∧ 360 ∉ [0, 90, 180, 270] := by decide

theorem witness_RotateRejectsWrongKind :
    (rawBitmap.err = none ∧ 180 ∈ [0, 90, 180, 270] ∧ rawBitmap.pbKind ≠ .bits1) ∧
    (State.reset.err = none ∧ 0 ∈ [0, 90, 180, 270] ∧ State.reset.pbKind ≠ .bits1) := by decide

/-- Section 2.8: 100 by 1 with `PB_CAP = 16`. -/
def wide : State := { holding 100 1 13 13 (List.replicate 13 0) with cfg := ⟨4096, 16, 2⟩ }

theorem witness_RotateCapacity :
    (wide.err = none ∧ wide.pbKind = .bits1 ∧
      wide.cfg.pbCap < (wide.pbHeight.toNat + 7) / 8 * wide.pbWidth.toNat) ∧
    (let s : State := { bitmap with cfg := ⟨4096, 5, 2⟩ }
     s.err = none ∧ s.pbKind = .bits1 ∧ s.cfg.pbCap < (s.pbWidth.toNat + 7) / 8 * s.pbHeight.toNat) ∧
    (bitmap.Inv ∧ bitmap.err = none ∧ bitmap.pbKind = .bits1 ∧
      exec (.rotate 180) bitmap = .next (after (.rotate 180) bitmap)) :=
  ⟨by decide, by decide, bitmap_inv, rfl, rfl, exec_after (by decide +kernel)⟩

theorem witness_RotateZeroIsIdentity : bitmap.err = none ∧ bitmap.pbKind = .bits1 := by decide

theorem witness_RotationMapIsBijection :
    (3, 10) = (if Rotation.deg90.swaps then (3, 10) else (10, 3)) ∧ 9 < 10 ∧ 2 < 3 := by decide

theorem witness_RotateQuarterTurn :
    bitmap.cfg.wf ∧ bitmap.err = none ∧ bitmap.pbKind = .bits1 ∧
      (bitmap.pbHeight.toNat + 7) / 8 * bitmap.pbWidth.toNat ≤ bitmap.cfg.pbCap := by decide

theorem witness_RotateHalfTurn : bitmap.Inv ∧ bitmap.err = none ∧ bitmap.pbKind = .bits1 :=
  ⟨bitmap_inv, rfl, rfl⟩

theorem holds_bitmap : holdsBits1 bitmap := ⟨bitmap_inv, rfl, rfl⟩

/-- A rotation that a computation shows to succeed. -/
theorem rotates_after {angle : Nat} {s : State} (h : (ok (exec (.rotate angle) s)).isSome = true)
    (hs : s.err = none) (ht : (after (.rotate angle) s).err = none) :
    rotates angle s (after (.rotate angle) s) := ⟨exec_after h, hs, ht⟩

theorem witness_OppositeRotationsCancel :
    holdsBits1 bitmap ∧ (90, 270) ∈ [(90, 270), (270, 90), (180, 180)] ∧
    rotates 90 bitmap (after (.rotate 90) bitmap) ∧
    rotates 270 (after (.rotate 90) bitmap) (after (.rotate 270) (after (.rotate 90) bitmap)) :=
  ⟨holds_bitmap, by decide, rotates_after (by decide +kernel) rfl (by decide +kernel),
    rotates_after (by decide +kernel) (by decide +kernel) (by decide +kernel)⟩

theorem witness_FourQuarterTurnsCancel :
    let t := after (.rotate 90) bitmap
    let u := after (.rotate 90) t
    let v := after (.rotate 90) u
    holdsBits1 bitmap ∧ rotates 90 bitmap t ∧ rotates 90 t u ∧ rotates 90 u v ∧
      rotates 90 v (after (.rotate 90) v) :=
  ⟨holds_bitmap, rotates_after (by decide +kernel) rfl (by decide +kernel),
    rotates_after (by decide +kernel) (by decide +kernel) (by decide +kernel),
    rotates_after (by decide +kernel) (by decide +kernel) (by decide +kernel),
    rotates_after (by decide +kernel) (by decide +kernel) (by decide +kernel)⟩

theorem witness_RotationsCompose :
    let t := after (.rotate 90) bitmap
    holdsBits1 bitmap ∧ rotates 90 bitmap t ∧ rotates 90 t (after (.rotate 90) t) ∧
      rotates 180 t (after (.rotate 180) t) ∧ rotates 180 bitmap (after (.rotate 180) bitmap) ∧
      rotates 270 bitmap (after (.rotate 270) bitmap) :=
  ⟨holds_bitmap, rotates_after (by decide +kernel) rfl (by decide +kernel),
    rotates_after (by decide +kernel) (by decide +kernel) (by decide +kernel),
    rotates_after (by decide +kernel) (by decide +kernel) (by decide +kernel),
    rotates_after (by decide +kernel) rfl (by decide +kernel),
    rotates_after (by decide +kernel) rfl (by decide +kernel)⟩

theorem witness_RotationKeepsDarkPixels :
    holdsBits1 bitmap ∧ rotates 270 bitmap (after (.rotate 270) bitmap) :=
  ⟨holds_bitmap, rotates_after (by decide +kernel) rfl (by decide +kernel)⟩

theorem witness_CommandFrame :
    exec .pack image = .next (after .pack image) ∧
    exec (.rotate 90) bitmap = .next (after (.rotate 90) bitmap) ∧
    exec .stride bitmap = .next (after .stride bitmap) ∧
    exec .bitaddr bitmap = .next (after .bitaddr bitmap) ∧
    exec .tailmask bitmap = .next (after .tailmask bitmap) ∧
    exec .clear bitmap = .next (after .clear bitmap) :=
  ⟨exec_pack_image, exec_after (by decide +kernel), rfl, rfl, rfl, rfl⟩

theorem witness_OnlySrcWriteChangesSource :
    step (asks (.regWrite 4 6) bitmap) = .next (cleared bitmap) ∧
    (asks (.regWrite 4 6) bitmap).script.head? ≠ some .reset ∧
    (∀ a v, (asks (.regWrite 4 6) bitmap).script.head? ≠ some (.transaction (.srcWrite a v))) :=
  ⟨rfl, by decide, fun _ _ h => nomatch h⟩

theorem witness_OperandWritesLeaveBitmap :
    let s := asks (.regWrite 3 7) bitmap
    let t : State := { bitmap with arg := 7 }
    let s' := asks (.srcWrite 0 7) bitmap
    (next s (.regWrite 3 7) [] ∧ step s = .next t ∧
      exec (.rotate 90) s = .next (after (.rotate 90) s) ∧
      exec (.rotate 90) t = .next (after (.rotate 90) t)) ∧
    (next s' (.srcWrite 0 7) [] ∧ step s' = .next (srcWrite 0 7 bitmap)) :=
  ⟨⟨rfl, rfl, exec_after (by decide +kernel), exec_after (by decide +kernel)⟩, rfl, rfl⟩

theorem witness_HostWritesCommute :
    Memory.wf image.src = true ∧ (0 ≠ 4095) ∧ RegName.width ≠ RegName.format := by decide

theorem witness_StepKeepsInvariant :
    (asks (.regWrite 4 6) bitmap).Inv ∧ step (asks (.regWrite 4 6) bitmap) = .next (cleared bitmap) :=
  ⟨asks_inv bitmap_inv _, rfl⟩

theorem witness_ResetMeetsInvariant :
    Config.Params.wf ⟨1, 1, 1⟩ ∧ Config.Params.wf ⟨2 ^ 32, 2 ^ 32 - 1, 4⟩ := by decide

/-- A run of a reachable state stays reachable. -/
theorem reachable_run (n : Nat) {s t : State} (h : Reachable s)
    (ht : ok (Host.Core.run Sys2Proof.core n s) = some t) : Reachable t := by
  induction n generalizing s with
  | zero => cases ht; exact h
  | succ n ih =>
    simp only [Host.Core.run] at ht
    cases hs : step s with
    | next s' =>
      have e : Sys2Proof.core.step s = .next s' := hs
      rw [e] at ht
      exact ih (.step h hs) ht
    | fault r => exact nomatch r
    | refused r =>
      have e : Sys2Proof.core.step s = .refused r := hs
      rw [e] at ht
      cases ht

theorem of_any {o : Option State} {p : State → Bool} (h : o.any p = true) :
    ∃ t, o = some t ∧ p t = true := by
  cases o with
  | none => cases h
  | some t => exact ⟨t, rfl, h⟩

/-- A 1 by 1 image packed from reset, and an error raised from reset. -/
theorem witness_ReachableStates :
    (∃ s, Reachable s ∧ s.pbKind = .bits1 ∧ 0 < s.pbHeight.toNat) ∧
    (∃ s, Reachable s ∧ s.err ≠ none) := by
  constructor
  · have h : (ok (Host.Core.run Sys2Proof.core 5 { State.resetWith Config.testVector with
        script := scriptEvents [.setdim 1 1, .wr .format 1, .sw 0 0, .cmd .pack] })).any
        (fun t => t.pbKind = .bits1 ∧ 0 < t.pbHeight.toNat) = true := by decide +kernel
    obtain ⟨t, ht, hk⟩ := of_any h
    exact ⟨t, reachable_run 5 (.start _ _ (by decide)) ht, by simpa using hk⟩
  · have h : (ok (Host.Core.run Sys2Proof.core 1 { State.resetWith Config.testVector with
        script := scriptEvents [.cmd .pack] })).any (fun t => t.err ≠ none) = true := by decide +kernel
    obtain ⟨t, ht, hk⟩ := of_any h
    exact ⟨t, reachable_run 1 (.start _ _ (by decide)) ht, by simpa using hk⟩

theorem witness_WriterReadsTheBitmap : bitmap.Inv ∧ (State.reset.Inv ∧ ¬ State.reset.holdsResult) :=
  ⟨bitmap_inv, reset_inv, fun h => h.2 rfl⟩

/-- Two states that list `SRC` alike and differ in what the host will do. -/
theorem witness_NoHiddenState :
    let s' := asks (.pbRead 0) bitmap
    bitmap.Inv ∧ s'.Inv ∧ visiblyEqual bitmap s' ∧ bitmap.srcEpoch = s'.srcEpoch ∧
    bitmap.replies = s'.replies ∧
    hostEvent (.transaction (.regWrite 4 6)) bitmap = .next (cleared bitmap) ∧
    hostEvent (.transaction (.regWrite 4 6)) s' = .next (cleared s') :=
  ⟨bitmap_inv, asks_inv bitmap_inv _, ⟨rfl, fun _ => rfl, fun _ => rfl, fun _ => rfl⟩, rfl, rfl, rfl, rfl⟩

theorem witness_ScriptExpansion :
    (RegName.width, 0) ∈ [(RegName.width, 0), (.height, 1), (.format, 2), (.arg, 3), (.cmd, 4),
      (.status, 5), (.pbWidth, 6), (.pbHeight, 7), (.pbStride, 8), (.pbSize, 9), (.result0, 10),
      (.result1, 11)] ∧ 0 < [0x5A#8].length := by decide

end Sys2Proof.Tests
end

section
/-! The word `STATUS` reads as, and host writes to the registers that ignore them (R15, R34). -/

open Sys2Proof Sys2Proof.Machine Sys2Proof.Claims

namespace Sys2Proof.Proofs

/-- A step whose next event is a register write performs that write on the rest of the script (R34). -/
theorem step_regWrite {s : State} {i : Nat} {v : Word} {rest : List HostEvent}
    (h : next s (.regWrite i v) rest) : step s = hostRegWrite i v { s with script := rest } :=
  step_cons h

/-- The registers from `STATUS` on are read-only: a host write stores nothing (R15 to R22, R34). -/
theorem storeReg_readOnly {r : RegName} (hr : 5 ≤ r.index) (v : Word) (s : State) :
    storeReg r v s = s := by
  cases r with
  | width | height | format | arg | cmd => exact absurd hr (by decide)
  | status | pbWidth | pbHeight | pbStride | pbSize | result0 | result1 => rfl

/-- From index 5 on every register is read-only or reserved: the host's write is ignored (R23, R34). -/
theorem hostRegWrite_ignored {i : Nat} (hi : 5 ≤ i) (v : Word) (s : State) :
    hostRegWrite i v s = .next s := by
  obtain ⟨h4, -⟩ | ⟨-, r, hr, hw⟩ | ⟨-, hw⟩ := hostRegWrite_cases i v s
  · omega
  · have hri : r.index = i := index_of_ofIndex hr
    rw [hw, storeReg_readOnly (hri ▸ hi)]
  · exact hw

/-- Index 5 reads the word of the two `STATUS` fields (R9, R15). -/
@[simp] theorem regRead_status (s : State) : regRead s 5 = statusWord s.err s.pbKind := rfl

/-- `STATUS` is a two-bit error code, two zero bits, a two-bit bitmap kind and 26 zero bits (R15). -/
theorem statusWord_fields (e : Option ErrorKind) (k : PbKind) :
    (statusWord e k).extractLsb' 0 2 = (errCode e).setWidth 2 ∧
    (statusWord e k).extractLsb' 2 2 = 0 ∧
    (statusWord e k).extractLsb' 4 2 = k.code.setWidth 2 ∧
    (statusWord e k).extractLsb' 6 26 = 0 := by
  rcases e with _ | _ | _ | _ <;> cases k <;> decide

/-- With no error and no bitmap `STATUS` reads 0 (R15). -/
theorem statusWord_none_absent : statusWord none .absent = 0 := by decide

/-- Without an error `STATUS` is one of the three words of the bitmap kinds (R15). -/
theorem statusWord_noError (k : PbKind) :
    statusWord none k ∈ [0x00#32, 0x10#32, 0x20#32] := by
  cases k <;> decide

/-- With an error, and so without a bitmap, `STATUS` is one of the three error codes (R15, R90). -/
theorem statusWord_error (e : ErrorKind) :
    statusWord (some e) .absent ∈ [0x01#32, 0x02#32, 0x03#32] := by
  cases e <;> decide

/-- Under the invariant `STATUS` is one of six words: an error excludes a bitmap (R15, R16). -/
theorem statusWord_mem_of_inv {s : State} (hs : s.Inv) :
    statusWord s.err s.pbKind ∈ [0x00#32, 0x10#32, 0x20#32] ++ [0x01#32, 0x02#32, 0x03#32] := by
  cases he : s.err with
  | none => exact List.mem_append_left _ (statusWord_noError s.pbKind)
  | some e =>
    have hk : s.pbKind = .absent := hs.err_absent (by simp [he])
    rw [hk]
    exact List.mem_append_right _ (statusWord_error e)

/-- Settles O11: the fields by the kinds of error and bitmap, the six values by the invariant, ignored
writes by the rule for read-only registers, and the reset value with no error and no bitmap. -/
theorem statusWordFields : Obligations.StatusWordFields := by
  refine ⟨fun e k => ?_, fun s hs => ⟨regRead_status s, ?_⟩, fun s v rest h => ?_,
    fun _ => statusWord_none_absent⟩
  · obtain ⟨herr, hlow, hkind, hhigh⟩ := statusWord_fields e k
    refine ⟨hlow, hhigh, ?_, ?_⟩
    · rw [herr]; rcases e with _ | _ | _ | _ <;> rfl
    · rw [hkind]; cases k <;> rfl
  · rw [regRead_status]; exact statusWord_mem_of_inv hs
  · rw [step_regWrite h, hostRegWrite_ignored le_rfl]

end Sys2Proof.Proofs
end

section
/-! The host's reads and writes of the registers, of `SRC` and of `PB` (R34 to R36). -/

open Sys2Proof Sys2Proof.Machine Sys2Proof.Claims

namespace Sys2Proof.Proofs

/-- A step whose next event is a transaction performs it on the rest of the script (R33). -/
theorem step_transaction {s : State} {t : Transaction} {rest : List HostEvent} (h : next s t rest) :
    step s = transact t { s with script := rest } :=
  step_cons h

/-! ### `SRC` -/

/-- A step whose next event is a write to `SRC` performs that write on the rest of the script (R35). -/
theorem step_srcWrite {s : State} {a : Nat} {v : Byte} {rest : List HostEvent}
    (h : next s (.srcWrite a v) rest) : step s = .next (srcWrite a v { s with script := rest }) :=
  step_transaction h

/-- A write inside `SRC` writes the memory behind it and nothing else (R35). -/
theorem srcWrite_inside {s : State} {a : Nat} (ha : a < s.cfg.srcCap) (v : Byte) :
    srcWrite a v s = { s with src := Memory.write s.src a v } :=
  if_pos ha

/-- A write at or above `SRC_CAP` has no effect (R35). -/
theorem srcWrite_outside {s : State} {a : Nat} (ha : s.cfg.srcCap ≤ a) (v : Byte) :
    srcWrite a v s = s :=
  if_neg (Nat.not_lt.mpr ha)

/-- Settles O12: a write inside `SRC` is the write to the memory behind it, which `srcRead_srcWrite`
reads back; a write outside does nothing; a read only leaves its reply. -/
theorem sourceTransactions : Obligations.SourceTransactions := by
  refine ⟨fun s a v rest h ha => ⟨Memory.write s.src a v, ?_, ?_⟩, fun s a v rest h ha => ?_,
    fun s a rest h => step_transaction h, fun s a => srcRead_of_ge⟩
  · rw [step_srcWrite h, srcWrite_inside (s := { s with script := rest }) ha]
  · rw [← srcWrite_inside ha v]
    exact ⟨by simp [srcRead_srcWrite, ha], fun b hb => by simp [srcRead_srcWrite, hb]⟩
  · rw [step_srcWrite h, srcWrite_outside (s := { s with script := rest }) ha]

/-! ### `PB` -/

/-- Under the invariant a read inside the bitmap finds its byte: `PB` has `PB_SIZE` bytes (R25, R36). -/
theorem pbRead_inside {s : State} (hs : s.Inv) {a : Nat} (hk : s.pbKind ≠ .absent)
    (ha : a < s.pbSize.toNat) : s.pb[a]? = some (pbRead s a) := by
  have hlen : a < s.pb.length := (hs.bitmap hk).length_eq ▸ ha
  simp [pbRead, hk, ha, List.getElem?_eq_getElem hlen]

/-- Without a bitmap, and from `PB_SIZE` on, a read returns 0 (R36). -/
theorem pbRead_outside {s : State} {a : Nat} (h : s.pbKind = .absent ∨ s.pbSize.toNat ≤ a) :
    pbRead s a = 0 :=
  if_neg fun ⟨hk, ha⟩ => h.elim hk (Nat.not_le.mpr ha)

/-- Settles O13: the reply is `pbRead`, a byte of `PB` inside the bitmap and 0 outside it. -/
theorem bitmapReadsAreGated : Obligations.BitmapReadsAreGated := fun s a _ hs h =>
  ⟨pbRead s a, step_transaction h, pbRead_inside hs, pbRead_outside⟩

/-! ### The register file -/

/-- A reserved index reads 0 (R23). -/
theorem regRead_reserved {s : State} {i : Nat} (hi : 12 ≤ i) : regRead s i = 0 := by
  rw [regRead, ofIndex_reserved hi]

/-- Settles O10: a read by its twelve indexes and the reserved ones, a write by the four operand
registers, `CMD`, and the indexes from 5 on that ignore it. -/
theorem registerTransactions : Obligations.RegisterTransactions := by
  refine ⟨fun s i rest h => ⟨regRead s i, step_transaction h, ?_⟩, fun s i v rest h => ?_⟩
  · refine ⟨?_, ?_, ?_, ?_, ?_, ?_, ?_, ?_, ?_, ?_, ?_, ?_, regRead_reserved⟩ <;> (rintro rfl; rfl)
  · rw [step_regWrite h]
    refine ⟨?_, ?_, ?_, ?_, ?_, fun hi => hostRegWrite_ignored hi v _⟩ <;> (rintro rfl; rfl)

end Sys2Proof.Proofs
end

section
/-! The row stride and the tail mask in the forms the spec gives them (R42, R45). -/

open Sys2Proof Sys2Proof.Machine

namespace Sys2Proof.Proofs

/-- The row stride by shift and mask: whole bytes, and one more for the remaining pixels (R42). -/
theorem stride1_eq_shift_add (w : Nat) :
    stride1 w = (w >>> 3) + if w &&& 7 ≠ 0 then 1 else 0 := by
  have hmod : w &&& 7 = w % 8 := Nat.and_two_pow_sub_one_eq_mod w 3
  have hdiv : w >>> 3 = w / 8 := Nat.shiftRight_eq_div_pow w 3
  rw [stride1, hmod, hdiv, ite_not]

/-- Settles O16: the two closed forms of the stride, and the bound by the first of them. -/
theorem strideIsCeiling : Obligations.StrideIsCeiling := by
  refine ⟨fun w => ⟨stride1_eq w, stride1_eq_shift_add w⟩, fun w => ?_⟩
  have hw := w.isLt
  rw [stride1_eq]; omega

/-- The mask of the next pixel is the bit below the high bits taken so far (R44, R45). -/
theorem highBits_or_bitMask {r : Nat} (hr : r < 8) :
    0xFF#8 <<< (8 - r) ||| bitMask r = 0xFF#8 <<< (8 - (r + 1)) := by
  interval_cases r <;> decide

/-- The masks of the first `r` pixels of a byte make up its `r` high bits (R45). -/
theorem foldl_or_bitMask_range {r : Nat} (hr : r ≤ 8) :
    (List.range r).foldl (fun m b => m ||| bitMask b) 0 = 0xFF#8 <<< (8 - r) := by
  induction r with
  | zero => decide
  | succ r ih =>
    rw [List.range_succ, List.foldl_append, ih (by omega)]
    exact highBits_or_bitMask hr

/-- Settles O17: the two cases of `tailMask`, the OR of the masks by induction on the number of valid
pixels, and the clear bits by `tailMask_getLsbD`. -/
theorem tailMaskIsValidBits : Obligations.TailMaskIsValidBits := by
  refine ⟨fun w h => if_pos h, fun w h => ?_, fun w j hj => ?_⟩
  · have hmask : tailMask w = 0xFF#8 <<< (8 - w % 8) := if_neg h
    have hr : w % 8 ≤ 8 := by omega
    exact ⟨hmask, hmask.trans (foldl_or_bitMask_range hr).symm⟩
  · rw [tailMask_getLsbD w j hj, decide_eq_false_iff_not, Nat.not_le]

end Sys2Proof.Proofs
end

section
/-! The `ILLEGAL` words, and what a write of one to `CMD` does (R57). -/

open Sys2Proof Sys2Proof.Machine Sys2Proof.Claims

namespace Sys2Proof.Proofs

/-! ### Which words are `ILLEGAL` -/

/-- The reserved bits of a word as digits of its value (R55). -/
theorem rsvField_ne_zero_iff (w : Word) : rsvField w ≠ 0 ↔ w.toNat / 256 % 256 ≠ 0 := by
  rw [← rsvField_toNat]; exact BitVec.toNat_inj.symm.not

/-- The immediate of a word as digits of its value (R55). -/
theorem imm16Field_ne_zero_iff (w : Word) : imm16Field w ≠ 0 ↔ w.toNat / 65536 ≠ 0 := by
  rw [← imm16Field_toNat]; exact BitVec.toNat_inj.symm.not

/-- A command without an immediate refuses exactly the words with `IMM16 != 0`. -/
theorem withoutImmediate_error_iff (w : Word) (i : Instr) :
    (∃ r, withoutImmediate w i = .error r) ↔ imm16Field w ≠ 0 := by
  unfold withoutImmediate
  split
  case isTrue himm => simp [himm]
  case isFalse himm => exact iff_of_true ⟨.immediate, rfl⟩ himm

/-- R57's list of the `ILLEGAL` words, by the fields of the word. -/
theorem decode_error_iff (w : Word) :
    (∃ r, decode w = .error r) ↔
      ((opcField w).toNat = 0 ∨ 7 ≤ (opcField w).toNat ∨ rsvField w ≠ 0 ∨
        ((opcField w).toNat ∈ [1, 3, 4, 5, 6] ∧ imm16Field w ≠ 0)) := by
  by_cases hrsv : rsvField w = 0
  · rw [decode, if_pos hrsv]
    split
    case h_1 hopc | h_3 hopc | h_4 hopc | h_5 hopc | h_6 hopc =>
      rw [withoutImmediate_error_iff]; simp [hopc, hrsv]
    case h_2 hopc => simp [hopc, hrsv]
    case h_7 h1 h2 h3 h4 h5 h6 =>
      simp only [imp_false] at h1 h2 h3 h4 h5 h6
      have hopc : (opcField w).toNat = 0 ∨ 7 ≤ (opcField w).toNat := by omega
      exact iff_of_true ⟨.opcode, rfl⟩ (hopc.imp_right .inl)
  · exact iff_of_true ⟨.reservedBits, if_neg hrsv⟩ (.inr (.inr (.inl hrsv)))

/-! ### Writing one to `CMD` -/

/-- The error entry is the state R90 says an error leaves. -/
theorem enterError_eq_erred (e : ErrorKind) (s : State) : enterError e s = erred e s := rfl

/-- Outside the error state an `ILLEGAL` word is the error entry of `InvalidArgument` (R57, R90). -/
theorem execIllegal_of_none {s : State} (he : s.err = none) :
    execIllegal s = .next (erred .invalidArgument s) := by
  rw [execIllegal, unlessError_of_none he, raise, enterError_eq_erred]

/-- In the error state an `ILLEGAL` word changes nothing (R91). -/
theorem execIllegal_of_error {s : State} (he : s.err ≠ none) : execIllegal s = .next s := by
  obtain ⟨e, he⟩ := Option.ne_none_iff_exists'.mp he
  rw [execIllegal, unlessError_of_error he]

/-- A step that writes an `ILLEGAL` word to `CMD` has that word's effect (R57, R91). -/
theorem step_illegalWord {s : State} {w : Word} {rest : List HostEvent} {r : Illegal}
    (h : next s (.regWrite 4 w) rest) (hw : decode w = .error r) :
    step s = execIllegal { s with script := rest } := by
  have hcmd : step s = cmdWrite w { s with script := rest } := step_regWrite h
  rw [hcmd, cmdWrite, hw]

/-- Settles O5: R57's list by the fields of the word, which are its digits; and the `ILLEGAL` word's
effect outside and inside the error state. -/
theorem illegalWordsExactly : Obligations.IllegalWordsExactly := by
  refine ⟨fun w => ?_, fun s w rest r h hw => ⟨fun he => ?_, fun he => ?_⟩⟩
  · rw [decode_error_iff, opcField_toNat, rsvField_ne_zero_iff, imm16Field_ne_zero_iff]
  · rw [step_illegalWord h hw, execIllegal_of_none (s := { s with script := rest }) he]
  · rw [step_illegalWord h hw, execIllegal_of_error (s := { s with script := rest }) he]

end Sys2Proof.Proofs
end

section
/-! The choice of the packing strategy by `FORMAT`, and what PACK checks before it packs (R64 to R66). -/

open Sys2Proof Sys2Proof.Machine Sys2Proof.Claims

namespace Sys2Proof.Proofs

/-! ### The fields of `FORMAT` -/

/-- `DEPTH` is the low digit of `FORMAT` in base 256 (R12). -/
theorem formatDepth_eq (v : Word) : formatDepth v = v.toNat % 256 := by
  simp [formatDepth]

/-- `LAYOUT` is the two bits above `DEPTH`, and names the layout with that code (R12). -/
theorem formatLayout_eq_some_iff (v : Word) (l : Layout) :
    formatLayout v = some l ↔ v.toNat / 256 % 4 = l.code.toNat := by
  have hbits : (v.extractLsb' 8 2).toNat = v.toNat / 256 % 4 := by
    simp [Nat.shiftRight_eq_div_pow]
  have hlt : v.toNat / 256 % 4 < 4 := Nat.mod_lt _ (by decide)
  rw [formatLayout, hbits]
  generalize v.toNat / 256 % 4 = c at hlt ⊢
  interval_cases c <;> cases l <;> decide

/-- The codes in use are 0 to 2 (R12). -/
theorem layoutCode_le (l : Layout) : l.code.toNat ≤ 2 := by
  cases l <;> decide

/-- Every code up to 2 is in use (R12). -/
theorem exists_layoutCode {c : Nat} (hc : c ≤ 2) : ∃ l : Layout, c = l.code.toNat := by
  interval_cases c
  · exact ⟨.mono, rfl⟩
  · exact ⟨.rgb, rfl⟩
  · exact ⟨.rgba, rfl⟩

/-! ### The table of strategies -/

/-- The strategy of a `FORMAT` word, by its fields (R64). -/
theorem formatStrategy_of_fields {v : Word} {d : Nat} {l : Layout} (p : Config.Params)
    (hd : v.toNat % 256 = d) (hl : v.toNat / 256 % 4 = l.code.toNat) :
    formatStrategy p v = strategy p d (some l) (v.getLsbD 16) := by
  rw [formatStrategy, formatDepth_eq, hd, (formatLayout_eq_some_iff v l).mpr hl, formatRaw]

/-- Depth 16 is a raw copy of `BPP16` bytes a pixel in every layout (R41, R64). -/
theorem strategy_depth16 (p : Config.Params) (l : Layout) (raw : Bool) :
    strategy p 16 (some l) raw = some (.rawCopy p.bpp16) := by
  cases l <;> rfl

/-- A depth and layout outside the table have no strategy (R64). -/
theorem strategy_eq_none {d : Nat} {l : Option Layout} (p : Config.Params) (raw : Bool)
    (h1 : ¬ (d = 1 ∧ l = some .mono)) (h8 : ¬ (d = 8 ∧ (l = some .rgb ∨ l = some .rgba)))
    (h16 : ∀ l', ¬ (d = 16 ∧ l = some l')) : strategy p d l raw = none := by
  unfold strategy
  split
  case h_1 => exact absurd ⟨rfl, rfl⟩ h1
  case h_2 | h_4 => exact absurd ⟨rfl, .inl rfl⟩ h8
  case h_3 | h_5 => exact absurd ⟨rfl, .inr rfl⟩ h8
  case h_6 => exact absurd ⟨rfl, rfl⟩ (h16 _)
  case h_7 => rfl

/-- A `FORMAT` word outside the table is unsupported (R64). -/
theorem formatStrategy_eq_none {v : Word} (p : Config.Params)
    (h1 : ¬ (v.toNat % 256 = 1 ∧ v.toNat / 256 % 4 = 0))
    (h8 : ¬ (v.toNat % 256 = 8 ∧ (v.toNat / 256 % 4 = 1 ∨ v.toNat / 256 % 4 = 2)))
    (h16 : ¬ (v.toNat % 256 = 16 ∧ v.toNat / 256 % 4 ≤ 2)) : formatStrategy p v = none := by
  rw [formatStrategy, formatDepth_eq]
  apply strategy_eq_none
  · rwa [formatLayout_eq_some_iff]
  · rwa [formatLayout_eq_some_iff, formatLayout_eq_some_iff]
  · rintro l ⟨hd, hl⟩
    rw [formatLayout_eq_some_iff] at hl
    exact h16 ⟨hd, hl ▸ layoutCode_le l⟩

/-! ### The checks of PACK -/

/-- The arm of PACK (R56). -/
theorem exec_pack (s : State) : exec .pack s = execPack s := rfl

/-- An unsupported `FORMAT` is rejected, whatever the geometry (R64). -/
theorem exec_pack_unsupported {s : State} (he : s.err = none)
    (hf : formatStrategy s.cfg s.format = none) :
    exec .pack s = .next (erred .unsupportedFormat s) := by
  rw [exec_pack, execPack, unlessError_of_none he, hf, ← enterError_eq_erred]
  rfl

/-- With a supported `FORMAT`, PACK checks the geometry and then the capacities (R63, R89). -/
theorem exec_pack_supported {s : State} {strat : Strategy} (he : s.err = none)
    (hf : formatStrategy s.cfg s.format = some strat) :
    exec .pack s =
      if s.width.toNat = 0 ∨ s.height.toNat = 0 then .next (erred .invalidArgument s)
      else if s.cfg.srcCap < strat.sourceRow s.width.toNat * s.height.toNat ∨
          s.cfg.pbCap < strat.packedRow s.width.toNat * s.height.toNat then
        .next (erred .outOfMemory s)
      else .next (newPB strat.kind s.width s.height (strat.dstStride s.width.toNat)
        (strat.pack (srcRead s) s.width.toNat s.height.toNat) s) := by
  rw [exec_pack, execPack, unlessError_of_none he, hf, ← srcStride_eq, ← dstStride_eq]
  rfl

/-- A PACK that succeeds found every check to hold, and leaves its strategy's kind of bitmap (R63). -/
theorem packable_of_exec_pack {s t : State} (he : s.err = none) (ht : exec .pack s = .next t)
    (hte : t.err = none) : ∃ strat, s.packable strat ∧ t.pbKind = strat.kind := by
  obtain ⟨herr, -⟩ | ⟨-, -, e, rfl⟩ | ⟨-, strat, hp, rfl⟩ := execPack_cases ht
  · exact absurd he herr
  · simp at hte
  · exact ⟨strat, hp, by simp⟩

/-- Settles O28: each row of the table by the fields of the word, the rest by `formatStrategy_eq_none`;
the first check of PACK; and the kind a successful PACK leaves. -/
theorem formatSelectsStrategy : Obligations.FormatSelectsStrategy := by
  refine ⟨fun p v d l hd hl => ?_, fun s he hf => exec_pack_unsupported he hf,
    fun s t strat he hf ht hte => ?_⟩
  · subst hd hl
    refine ⟨fun hd hl => ?_, fun hd hl hr => ?_, fun hd hl hr => ?_, fun hd hl hr => ?_,
      fun hd hl hr => ?_, fun hd hl => ?_, formatStrategy_eq_none p⟩
    · rw [formatStrategy_of_fields (l := .mono) p hd hl]; rfl
    · rw [formatStrategy_of_fields (l := .rgb) p hd hl, hr]; rfl
    · rw [formatStrategy_of_fields (l := .rgba) p hd hl, hr]; rfl
    · rw [formatStrategy_of_fields (l := .rgb) p hd hl, hr]; rfl
    · rw [formatStrategy_of_fields (l := .rgba) p hd hl, hr]; rfl
    · obtain ⟨layout, hlayout⟩ := exists_layoutCode hl
      rw [formatStrategy_of_fields p hd hlayout, strategy_depth16]
  · obtain ⟨strat', ⟨hf', -⟩, hk⟩ := packable_of_exec_pack he ht hte
    obtain rfl : strat = strat' := Option.some.inj (hf.symm.trans hf')
    rw [hk]; cases strat <;> rfl

/-- Settles O29: the geometry is checked before the capacities. -/
theorem packRejectsZeroGeometry : Obligations.PackRejectsZeroGeometry := by
  intro s strat he hf hzero
  rw [exec_pack_supported he hf, if_pos]
  exact hzero.imp (fun hw => by simp [hw]) (fun hh => by simp [hh])

/-- Settles O30: the strides written out are those of the strategy `FORMAT` selects. -/
theorem packRejectsTooLarge : Obligations.PackRejectsTooLarge := by
  intro s ss ds he hstrides hw hh hlarge
  obtain ⟨strat, hf, rfl, rfl⟩ := (strides_iff s ss ds).mp hstrides
  have hgeometry : ¬ (s.width.toNat = 0 ∨ s.height.toNat = 0) :=
    not_or.mpr ⟨BitVec.toNat_inj.not.mpr hw, BitVec.toNat_inj.not.mpr hh⟩
  rw [exec_pack_supported he hf, if_neg hgeometry, if_pos hlarge]

end Sys2Proof.Proofs
end

section
/-! The bitmaps the three packing strategies make (R67 to R69). -/

open Sys2Proof Sys2Proof.Machine Sys2Proof.Claims

namespace Sys2Proof.Proofs

/-- A PACK that passes its checks leaves the strategy's bitmap: the stride is the packed row's, `PB` has
`PB_SIZE` bytes, and both numbers fit their registers (R27, R53, R63). -/
theorem exec_pack_of_packable {s : State} {strat : Strategy} (hc : s.cfg.wf) (he : s.err = none)
    (hp : s.packable strat) :
    ∃ stride size : Word,
      exec .pack s = .next { s with
        pbKind := strat.kind, pbWidth := s.width, pbHeight := s.height, pbStride := stride,
        pbSize := size, pb := strat.pack (srcRead s) s.width.toNat s.height.toNat } ∧
      stride.toNat = strat.packedRow s.width.toNat ∧
      size.toNat = stride.toNat * s.height.toNat ∧
      (strat.pack (srcRead s) s.width.toNat s.height.toNat).length = size.toNat := by
  obtain ⟨-, -, -, hpbCap, -, -⟩ := hc
  have hexec := execPack_of_packable he hp
  obtain ⟨-, -, hheight, -, hfits⟩ := hp
  rw [dstStride_eq] at hexec
  obtain ⟨hstride, hsize⟩ := stored_size hpbCap hheight hfits
  refine ⟨_, _, hexec, hstride, ?_, ?_⟩
  · rw [hsize, hstride]
  · rw [hsize, length_pack, dstStride_eq]

/-! ### Monochrome -/

/-- Settles O31: the bytes are those of `packMono_getElem?`. -/
theorem packMonochrome : Obligations.PackMonochrome := by
  intro s hc he _ hp
  obtain ⟨stride, size, hexec, hstride, hsize, hlen⟩ := exec_pack_of_packable hc he hp
  refine ⟨stride, size, _, hexec, hstride, hsize, hlen, fun y hy k hk => ?_⟩
  have hrow : stride.toNat = stride1 s.width.toNat :=
    hstride.trans (stride1_eq _).symm
  have hlast : k = stride.toNat - 1 ↔ k + 1 = stride.toNat := by omega
  simp only [hlast]
  rw [hrow] at hk ⊢
  exact packMono_getElem? (srcRead s) s.width.toNat s.height.toNat hy hk

/-! ### Classification -/

/-- A pixel is black when its first three bytes are 0 (R68). -/
theorem isBlack_iff (rd : Nat → Byte) (p : Nat) :
    isBlack rd p = true ↔ ∀ c < 3, rd (p + c) = 0 := by
  constructor
  · intro h c hc
    simp only [isBlack, Bool.and_eq_true, beq_iff_eq] at h
    obtain ⟨⟨h0, h1⟩, h2⟩ := h
    interval_cases c
    · exact h0
    · exact h1
    · exact h2
  · intro h
    simp [isBlack, h 1, h 2, show rd p = 0 from h 0 (by decide)]

/-- Byte `k` of row `y` lies in an array of whole rows (R38). -/
theorem rowOffset_lt {stride h y k : Nat} (hk : k < stride) (hy : y < h) :
    y * stride + k < stride * h := by
  have hoff : bitOffset stride (8 * k) y < stride * h := bitOffset_lt (by omega) hy
  rwa [bitOffset, bytePos, Nat.mul_div_cancel_left k (by decide)] at hoff

/-- Bit `7 - j` of byte `k` of a row is the pixel at `8k + j` (R8, R46). -/
theorem getBit_of_getElem? {A : List Byte} {stride y k j : Nat} {b : Byte}
    (hb : A[y * stride + k]? = some b) (hj : j < 8) :
    getBit A stride (8 * k + j) y = b.getLsbD (7 - j) := by
  have hbyte : (8 * k + j) / 8 = k := by omega
  have hbit : (8 * k + j) % 8 = j := by omega
  rw [getBit_eq, bitOffset, bytePos, hbyte, hbit, hb, Option.getD_some]

/-- Settles O32: byte `k` of row `y` lies in the bitmap, and its bits are those of
`getBit_packClassify`. -/
theorem packClassification : Obligations.PackClassification := by
  intro s n hc he _ _ hp
  obtain ⟨stride, size, hexec, hstride, hsize, hlen⟩ := exec_pack_of_packable hc he hp
  refine ⟨stride, size, _, hexec, hstride, hsize, hlen, fun y hy k hk j hj => ?_⟩
  have hrow : stride.toNat = stride1 s.width.toNat :=
    hstride.trans (stride1_eq _).symm
  have hx : 8 * k + j < 8 * stride.toNat := by omega
  have hin : y * stride.toNat + k <
      (Strategy.pack (srcRead s) s.width.toNat s.height.toNat (.classify n)).length := by
    rw [hlen, hsize]; exact rowOffset_lt hk hy
  have hb := List.getElem?_eq_getElem hin
  refine ⟨_, hb, ?_⟩
  rw [← getBit_of_getElem? hb hj, hrow, Strategy.pack, getBit_packClassify _ _ _ _ (hrow ▸ hx) hy,
    Bool.and_eq_true, decide_eq_true_eq, isBlack_iff]

/-! ### Raw copies -/

/-- Settles O33: a raw bitmap is the first bytes of `SRC` in order. -/
theorem packRawCopy : Obligations.PackRawCopy := by
  intro s n hc he _ hp
  obtain ⟨stride, size, hexec, hstride, hsize, hlen⟩ := exec_pack_of_packable hc he hp
  refine ⟨stride, size, _, hexec, hstride, hsize, hlen, fun i hi => ?_⟩
  have hi' : i < s.width.toNat * n * s.height.toNat := by rwa [hsize, hstride] at hi
  rw [Strategy.pack, packRaw_eq_map, List.getElem?_map, List.getElem?_range hi', Option.map_some]

end Sys2Proof.Proofs
end

section
/-! The checks of ROTATE in their order, and the geometric mapping as a bijection (R72 to R76). -/

open Sys2Proof Sys2Proof.Machine Sys2Proof.Claims

namespace Sys2Proof.Proofs

/-! ### The angle -/

/-- The legal angles name a rotation (R58). -/
theorem exists_ofDegrees {angle : Nat} (h : angle ∈ [0, 90, 180, 270]) :
    ∃ r, Rotation.ofDegrees angle = some r := by
  simp only [List.mem_cons, List.not_mem_nil, or_false] at h
  obtain rfl | rfl | rfl | rfl := h
  · exact ⟨.deg0, rfl⟩
  · exact ⟨.deg90, rfl⟩
  · exact ⟨.deg180, rfl⟩
  · exact ⟨.deg270, rfl⟩

/-- Only the legal angles name a rotation: there is no reduction modulo 360 (R58, R72). -/
theorem ofDegrees_eq_none {angle : Nat} (h : angle ∉ [0, 90, 180, 270]) :
    Rotation.ofDegrees angle = none := by
  unfold Rotation.ofDegrees
  split
  case h_1 | h_2 | h_3 | h_4 => exact absurd (by decide) h
  case h_5 => rfl

/-! ### The checks of ROTATE -/

/-- The arm of ROTATE (R56). -/
theorem exec_rotate (angle : Nat) (s : State) : exec (.rotate angle) s = execRotate angle s := rfl

/-- An angle that names no rotation is rejected, whatever the bitmap (R72). -/
theorem exec_rotate_badAngle {s : State} {angle : Nat} (he : s.err = none)
    (hr : Rotation.ofDegrees angle = none) :
    exec (.rotate angle) s = .next (erred .invalidArgument s) := by
  rw [exec_rotate, execRotate, unlessError_of_none he, hr, ← enterError_eq_erred]
  rfl

/-- Bytes of the bitmap a rotation makes: its rows of whole bytes (R74). -/
def rotatedSize (r : Rotation) (s : State) : Nat :=
  stride1 (r.width2 s.pbWidth s.pbHeight).toNat * (r.height2 s.pbWidth s.pbHeight).toNat

/-- The state with its bitmap replaced by the rotated one (R78). -/
def rotated (r : Rotation) (s : State) : State :=
  newPB .bits1 (r.width2 s.pbWidth s.pbHeight) (r.height2 s.pbWidth s.pbHeight)
    (stride1 (r.width2 s.pbWidth s.pbHeight).toNat)
    (rotateBits s.pb s.pbWidth.toNat s.pbHeight.toNat s.pbStride.toNat r
      (stride1 (r.width2 s.pbWidth s.pbHeight).toNat) (r.height2 s.pbWidth s.pbHeight).toNat) s

@[simp] theorem rotated_err (r : Rotation) (s : State) : (rotated r s).err = s.err := rfl

/-- With a legal angle, ROTATE checks the kind of the bitmap; then angle 0 changes nothing, and any other
angle checks the capacity (R73 to R75, R89). -/
theorem exec_rotate_legalAngle {s : State} {angle : Nat} {r : Rotation} (he : s.err = none)
    (hr : Rotation.ofDegrees angle = some r) :
    exec (.rotate angle) s =
      if s.pbKind ≠ .bits1 then .next (erred .unsupportedFormat s)
      else if r = .deg0 then .next s
      else if s.cfg.pbCap < rotatedSize r s then .next (erred .outOfMemory s)
      else .next (rotated r s) := by
  rw [exec_rotate, execRotate, unlessError_of_none he, hr]
  rfl

/-- A turn of a 1-bit bitmap answers an error or the rotated bitmap by the capacity alone (R74, R78). -/
theorem exec_rotate_turn {s : State} {angle : Nat} {r : Rotation} (he : s.err = none)
    (hk : s.pbKind = .bits1) (hr : Rotation.ofDegrees angle = some r) (h0 : r ≠ .deg0) :
    exec (.rotate angle) s =
      if s.cfg.pbCap < rotatedSize r s then .next (erred .outOfMemory s) else .next (rotated r s) := by
  rw [exec_rotate_legalAngle he hr, if_neg (not_not.mpr hk), if_neg h0]

/-- The bytes of the bitmap a quarter turn makes, written out (R42, R76). -/
theorem rotatedSize_of_swaps {r : Rotation} (hr : r.swaps = true) (s : State) :
    rotatedSize r s = (s.pbHeight.toNat + 7) / 8 * s.pbWidth.toNat := by
  rw [rotatedSize, stride1_eq, Rotation.width2, Rotation.height2, if_pos hr, if_pos hr]

/-- The bytes of the bitmap a half turn makes, written out (R42, R76). -/
theorem rotatedSize_deg180 (s : State) :
    rotatedSize .deg180 s = (s.pbWidth.toNat + 7) / 8 * s.pbHeight.toNat := by
  rw [rotatedSize, stride1_eq]; rfl

/-- The half turn of a 1-bit bitmap has the size of the bitmap, and so fits (R26, R74). -/
theorem rotatedSize_deg180_le {s : State} (hs : s.BitmapInv) (hk : s.pbKind = .bits1) :
    rotatedSize .deg180 s ≤ s.cfg.pbCap := by
  rw [rotatedSize_deg180, ← stride1_eq, ← hs.stride_bits1 hk, ← hs.size_eq]
  exact hs.size_le

/-- Settles O41: the capacity check with the destination's size written out, and for 180 degrees the
bound on the bitmap that is already there. -/
theorem rotateCapacity : Obligations.RotateCapacity := by
  refine ⟨fun s angle he hk hangle hlarge => ?_, fun s he hk hlarge => ?_,
    fun s t hs he hk ht => ?_⟩
  · obtain rfl | rfl := hangle
    · rw [exec_rotate_turn (r := .deg90) he hk rfl (by decide), rotatedSize_of_swaps rfl, if_pos hlarge]
    · rw [exec_rotate_turn (r := .deg270) he hk rfl (by decide), rotatedSize_of_swaps rfl, if_pos hlarge]
  · rw [exec_rotate_turn (r := .deg180) he hk rfl (by decide), rotatedSize_deg180, if_pos hlarge]
  · have hfits := rotatedSize_deg180_le (hs.bitmap (by simp [hk])) hk
    rw [exec_rotate_turn (r := .deg180) he hk rfl (by decide), if_neg (Nat.not_lt.mpr hfits)] at ht
    cases ht
    rw [rotated_err, he]

/-- Settles O39: such an angle names no rotation. -/
theorem rotateRejectsBadAngle : Obligations.RotateRejectsBadAngle := fun _ _ he hangle =>
  exec_rotate_badAngle he (ofDegrees_eq_none hangle)

/-- Settles O40: a legal angle names a rotation, and the kind is the next check. -/
theorem rotateRejectsWrongKind : Obligations.RotateRejectsWrongKind := by
  intro s angle he hangle hk
  obtain ⟨r, hr⟩ := exists_ofDegrees hangle
  rw [exec_rotate_legalAngle he hr, if_pos hk]

/-- Settles O42: angle 0 is the rotation that the checks leave without effect. -/
theorem rotateZeroIsIdentity : Obligations.RotateZeroIsIdentity := by
  intro s he hk
  rw [exec_rotate_legalAngle (r := .deg0) he rfl, if_neg (not_not.mpr hk), if_pos rfl]

/-! ### The geometric mapping -/

/-- The rotation that takes a rotated image back (R79 (c), (d)). -/
def inverseRotation : Rotation → Rotation
  | .deg0 => .deg0
  | .deg90 => .deg270
  | .deg180 => .deg180
  | .deg270 => .deg90

/-- The inverse rotation takes the destination's size back to the source's (R76). -/
theorem size2_inverse (r : Rotation) (w h : Nat) :
    (inverseRotation r).size2 (r.size2 w h).1 (r.size2 w h).2 = (w, h) := by
  cases r <;> rfl

/-- Mirroring a coordinate of `n` places twice gives it back. -/
theorem mirror_mirror {n i : Nat} (hi : i < n) : n - 1 - (n - 1 - i) = i :=
  Nat.sub_sub_self (Nat.le_sub_one_of_lt hi)

/-- A pixel of the destination is sent to by the pixel the inverse rotation names (R76). -/
theorem dest_inverse_dest (r : Rotation) {w h : Nat} {q : Nat × Nat}
    (hx : q.1 < (r.size2 w h).1) (hy : q.2 < (r.size2 w h).2) :
    r.dest w h ((inverseRotation r).dest (r.size2 w h).1 (r.size2 w h).2 q) = q := by
  cases r with
  | deg0 => rfl
  | deg90 => exact Prod.ext (mirror_mirror hx) rfl
  | deg180 => exact Prod.ext (mirror_mirror hx) (mirror_mirror hy)
  | deg270 => exact Prod.ext rfl (mirror_mirror hy)

/-- Every pixel of the destination comes from a pixel of the source (R76). -/
theorem exists_dest_eq (r : Rotation) {w h : Nat} {q : Nat × Nat}
    (hx : q.1 < (r.size2 w h).1) (hy : q.2 < (r.size2 w h).2) :
    ∃ p : Nat × Nat, p.1 < w ∧ p.2 < h ∧ r.dest w h p = q := by
  have hp := dest_lt (inverseRotation r) hx hy
  rw [size2_inverse] at hp
  exact ⟨_, hp.1, hp.2, dest_inverse_dest r hx hy⟩

/-- Settles O43: the table by definition; onto by the inverse rotation, one to one by `dest_inj`. -/
theorem rotationMapIsBijection : Obligations.RotationMapIsBijection := by
  refine ⟨fun w h rx ry => ⟨rfl, rfl, rfl, rfl⟩, ⟨rfl, rfl, rfl, rfl⟩, fun r w h w2 h2 hsize => ?_⟩
  obtain ⟨rfl, rfl⟩ : w2 = (r.size2 w h).1 ∧ h2 = (r.size2 w h).2 := Prod.mk.inj hsize
  refine ⟨fun p => dest_lt r, fun q hx hy => ?_⟩
  obtain ⟨p, hpx, hpy, hpq⟩ := exists_dest_eq r hx hy
  exact ⟨p, ⟨hpx, hpy, hpq⟩, fun p' hx' hy' hp' => dest_inj r hx' hy' hpx hpy (hp'.trans hpq.symm)⟩

end Sys2Proof.Proofs
end

section
/-! The results of the utility commands by shifts and masks of `ARG`, and CLEAR (R80 to R84). -/

open Sys2Proof Sys2Proof.Machine Sys2Proof.Claims

namespace Sys2Proof.Proofs

/-! ### The helpers on words -/

/-- The low three bits of a word are its remainder by 8: a pixel's place within its byte. -/
theorem and_seven_toNat (v : Word) : (v &&& 7).toNat = v.toNat % 8 :=
  (BitVec.toNat_and v 7).trans (Nat.and_two_pow_sub_one_eq_mod v.toNat 3)

/-- The low three bits of a word are clear exactly when 8 divides it. -/
theorem and_seven_eq_zero_iff (v : Word) : v &&& 7 = 0 ↔ v.toNat % 8 = 0 := by
  rw [← and_seven_toNat]; exact BitVec.toNat_inj.symm

/-- The byte position of a word, as a word (R43). -/
theorem ofNat_bytePos (v : Word) : BitVec.ofNat 32 (bytePos v.toNat) = v >>> 3 := by
  have hpos : bytePos v.toNat = (v >>> 3).toNat := (Nat.shiftRight_eq_div_pow v.toNat 3).symm
  rw [hpos, BitVec.ofNat_toNat, BitVec.setWidth_eq]

/-- The row stride of a word, as a word (R42). -/
theorem ofNat_stride1 (v : Word) :
    BitVec.ofNat 32 (stride1 v.toNat) = (v >>> 3) + if v &&& 7 ≠ 0 then 1 else 0 := by
  have hstride : stride1 v.toNat = bytePos v.toNat + if v.toNat % 8 = 0 then 0 else 1 := rfl
  rw [hstride, BitVec.ofNat_add, ofNat_bytePos, ite_not, if_congr (and_seven_eq_zero_iff v) rfl rfl,
    apply_ite (BitVec.ofNat 32)]
  rfl

/-- The mask of a pixel with bits 31:8 zero: the shift loses no bit in the wider word (R44). -/
theorem setWidth_bitMask (v : Word) :
    (bitMask v.toNat).setWidth 32 = 0x80#32 >>> (v &&& 7).toNat := by
  have hwiden : ∀ r < 8, (0x80#8 >>> r).setWidth 32 = 0x80#32 >>> r := by decide
  rw [and_seven_toNat]
  exact hwiden _ (Nat.mod_lt _ (by decide))

/-- The tail mask with bits 31:8 zero: what the byte's shift drops, the wider word masks off (R45). -/
theorem setWidth_tailMask (v : Word) :
    (tailMask v.toNat).setWidth 32 =
      if v &&& 7 = 0 then 0xFF else (0xFF#32 <<< (8 - (v &&& 7).toNat)) &&& 0xFF := by
  have hwiden : ∀ k < 9, (0xFF#8 <<< k).setWidth 32 = (0xFF#32 <<< k) &&& 0xFF := by decide
  rw [tailMask, if_congr (and_seven_eq_zero_iff v) rfl rfl, and_seven_toNat]
  split
  case isTrue => rfl
  case isFalse => exact hwiden _ (by omega)

/-! ### The commands outside the error state -/

/-- STRIDE outside the error state writes `RESULT0` alone (R81, R91). -/
theorem exec_stride_of_none {s : State} (he : s.err = none) :
    exec .stride s = .next { s with result0 := BitVec.ofNat 32 (stride1 s.arg.toNat) } :=
  unlessError_of_none he _

/-- BITADDR outside the error state writes the two result registers alone (R82, R91). -/
theorem exec_bitaddr_of_none {s : State} (he : s.err = none) :
    exec .bitaddr s = .next { s with
      result0 := BitVec.ofNat 32 (bytePos s.arg.toNat)
      result1 := (bitMask s.arg.toNat).setWidth 32 } :=
  unlessError_of_none he _

/-- TAILMASK outside the error state writes `RESULT0` alone (R83, R91). -/
theorem exec_tailmask_of_none {s : State} (he : s.err = none) :
    exec .tailmask s = .next { s with result0 := (tailMask s.arg.toNat).setWidth 32 } :=
  unlessError_of_none he _

/-- CLEAR leaves the error state for the state R84 writes out, whatever the state was. -/
theorem exec_clear (s : State) : exec .clear s = .next (cleared s) := rfl

/-- Settles O24: the stride of `ARG` by shift and mask. -/
theorem strideResult : Obligations.StrideResult := by
  refine ⟨by decide, fun s he => ?_⟩
  rw [exec_stride_of_none he, ofNat_stride1]

/-- Settles O25: the byte position and the pixel's mask by shifts. -/
theorem bitaddrResult : Obligations.BitaddrResult := by
  refine ⟨by decide, fun s he => ?_⟩
  rw [exec_bitaddr_of_none he, ofNat_bytePos, setWidth_bitMask]

/-- Settles O26: the tail mask in both cases of `ARG`'s low bits. -/
theorem tailmaskResult : Obligations.TailmaskResult := by
  refine ⟨by decide, fun s he => ?_⟩
  rw [exec_tailmask_of_none he, setWidth_tailMask]

/-- Settles O27: CLEAR is not gated by the error state. -/
theorem clearResult : Obligations.ClearResult := ⟨by decide, exec_clear⟩

end Sys2Proof.Proofs
end

section
/-! The error entry, the error state, and what a command that raises an error leaves (R90 to R94). -/

open Sys2Proof Sys2Proof.Machine Sys2Proof.Claims

namespace Sys2Proof.Proofs

/-! ### The error entry -/

@[simp] theorem erred_err (e : ErrorKind) (s : State) : (erred e s).err = some e := rfl

@[simp] theorem erred_pbKind (e : ErrorKind) (s : State) : (erred e s).pbKind = .absent := rfl

/-- Settles O18: the entry field by field, and the word of `STATUS` for each kind of error. -/
theorem errorEntry : Obligations.ErrorEntry := by
  refine ⟨fun e s => congrArg Host.Outcome.next (enterError_eq_erred e s), fun e s => ?_⟩
  rw [regRead_status, erred_err, erred_pbKind]
  cases e <;> rfl

/-! ### Raising an error -/

/-- Outside the error state a command ends without an error, or in an error entry on the state it found
(R89, R94). -/
theorem exec_noError_or_erred {i : Instr} {s t : State} (h : exec i s = .next t) (he : s.err = none) :
    t.err = none ∨ ∃ e, t = erred e s := by
  cases i with
  | pack =>
    obtain ⟨herr, -⟩ | ⟨-, -, e, rfl⟩ | ⟨-, strat, -, rfl⟩ := execPack_cases h
    · exact absurd he herr
    · exact .inr ⟨e, enterError_eq_erred e s⟩
    · exact .inl he
  | rotate angle =>
    obtain ⟨herr, -⟩ | ⟨-, e, rfl⟩ | ⟨-, -, -, rfl⟩ | ⟨-, -, r, -, -, -, rfl⟩ := execRotate_cases h
    · exact absurd he herr
    · exact .inr ⟨e, enterError_eq_erred e s⟩
    · exact .inl he
    · exact .inl he
  | stride => rw [exec_stride_of_none he] at h; cases h; exact .inl he
  | bitaddr => rw [exec_bitaddr_of_none he] at h; cases h; exact .inl he
  | tailmask => rw [exec_tailmask_of_none he] at h; cases h; exact .inl he
  | clear => rw [exec_clear] at h; cases h; exact .inl rfl

/-- Settles O23: of the two ends of a command outside the error state, only the error entry has an
error. -/
theorem errorsArePrecise : Obligations.ErrorsArePrecise :=
  fun _ _ _ h he hte => (exec_noError_or_erred h he).resolve_left hte

/-! ### In the error state -/

/-- In the error state every command but CLEAR changes nothing (R91). -/
theorem exec_of_error {i : Instr} {s : State} {e : ErrorKind} (he : s.err = some e)
    (hi : i ≠ .clear) : exec i s = .next s := by
  cases i with
  | clear => exact absurd rfl hi
  | pack | rotate | stride | bitaddr | tailmask => exact unlessError_of_error he _

/-- A command without an immediate decodes to itself, from a word without one (R57). -/
theorem withoutImmediate_ok_iff (w : Word) (i j : Instr) :
    withoutImmediate w i = .ok j ↔ imm16Field w = 0 ∧ i = j := by
  unfold withoutImmediate
  split
  case isTrue h => simp [h]
  case isFalse h => exact iff_of_false nofun fun ⟨himm, _⟩ => h himm

/-- Only the word `0x00000006` is CLEAR (R56). -/
theorem word_of_decode_clear {w : Word} (h : decode w = .ok .clear) : w = 0x00000006 := by
  unfold decode at h
  split at h
  case isFalse => cases h
  case isTrue hrsv =>
    split at h
    case h_1 | h_3 | h_4 | h_5 => simp [withoutImmediate_ok_iff] at h
    case h_2 | h_7 => cases h
    case h_6 hopc =>
      obtain ⟨himm, -⟩ := (withoutImmediate_ok_iff w _ _).mp h
      have hrsv : w.toNat / 256 % 256 = 0 := by rw [← rsvField_toNat, hrsv]; rfl
      have himm : w.toNat / 65536 = 0 := by rw [← imm16Field_toNat, himm]; rfl
      rw [opcField_toNat] at hopc
      apply BitVec.eq_of_toNat_eq
      show w.toNat = 6
      omega

/-- In the error state a write to `CMD` of any word but CLEAR's changes nothing (R91). -/
theorem cmdWrite_of_error {w : Word} {s : State} {e : ErrorKind} (he : s.err = some e)
    (hw : w ≠ 0x00000006) : cmdWrite w s = .next s := by
  obtain ⟨i, hd, hc⟩ | ⟨r, -, hc⟩ := cmdWrite_cases w s
  · have hi : i ≠ .clear := fun hi => hw (word_of_decode_clear (hi ▸ hd))
    rw [hc, exec_of_error he hi]
  · rw [hc, execIllegal_of_error (by simp [he])]

/-- In the error state a register write other than CLEAR's keeps the error (R92). -/
theorem hostRegWrite_keeps_error {i : Nat} {v : Word} {s t : State} {e : ErrorKind}
    (he : s.err = some e) (hclear : ¬ (i = 4 ∧ v = 0x00000006)) (h : hostRegWrite i v s = .next t) :
    t.err = some e := by
  obtain ⟨rfl, hw⟩ | ⟨-, r, -, hw⟩ | ⟨-, hw⟩ := hostRegWrite_cases i v s <;> rw [hw] at h
  · have hv : v ≠ 0x00000006 := fun hv => hclear ⟨rfl, hv⟩
    rw [cmdWrite_of_error he hv] at h; cases h; exact he
  · cases h; rw [storeReg_err, he]
  · cases h; exact he

/-- In the error state every host event but reset and CLEAR's write keeps the error (R92). -/
theorem hostEvent_keeps_error {ev : HostEvent} {s t : State} {e : ErrorKind} (he : s.err = some e)
    (hreset : ev ≠ .reset) (hclear : ev ≠ .transaction (.regWrite 4 0x00000006))
    (h : hostEvent ev s = .next t) : t.err = some e := by
  cases ev with
  | reset => exact absurd rfl hreset
  | transaction a =>
    cases a with
    | regWrite i v =>
      exact hostRegWrite_keeps_error he (fun ⟨hi, hv⟩ => hclear (by rw [hi, hv])) h
    | srcWrite a v => cases h; rw [srcWrite_err, he]
    | regRead _ | srcRead _ | pbRead _ => cases h; exact he

/-- Settles O20: a step is idle or its next event, which is neither reset nor CLEAR's write. -/
theorem firstErrorKept : Obligations.FirstErrorKept := by
  intro s t e he ht hreset hclear
  obtain ⟨-, rfl⟩ | ⟨ev, rest, hs, hev⟩ := step_cases ht
  · exact he
  · rw [hs, List.head?_cons] at hreset hclear
    exact hostEvent_keeps_error (s := withScript rest s) he (fun h => hreset (congrArg some h))
      (fun h => hclear (congrArg some h)) hev

end Sys2Proof.Proofs
end

section
/-! Writes to the operand registers and to `SRC` and the bitmap (R105), and the successor of every step
(R109). -/

open Sys2Proof Sys2Proof.Machine Sys2Proof.Claims

namespace Sys2Proof.Proofs

/-! ### What ROTATE depends on -/

/-- The state as the bitmap's side of the machine sees it: the parameters, the error and the bitmap with
its descriptors, and every other field at its reset value. -/
def bitmapPart (s : State) : State :=
  { State.resetWith s.cfg with
    err := s.err, pbKind := s.pbKind, pbWidth := s.pbWidth, pbHeight := s.pbHeight,
    pbStride := s.pbStride, pbSize := s.pbSize, pb := s.pb }

/-- The bitmap, its size and the error are read off the bitmap's part of the state. -/
theorem bitmap_eq_of_bitmapPart_eq {s t : State} (h : bitmapPart t = bitmapPart s) :
    t.bitmap = s.bitmap ∧ t.pbSize = s.pbSize ∧ t.err = s.err :=
  ⟨(congrArg State.bitmap h :), (congrArg State.pbSize h :), (congrArg State.err h :)⟩

/-- Storing a host's write leaves the bitmap's part, whatever the register (R34, R105). -/
theorem bitmapPart_storeReg (r : RegName) (v : Word) (s : State) :
    bitmapPart (storeReg r v s) = bitmapPart s := by
  cases r <;> rfl

/-- A write to `SRC` leaves the bitmap's part (R35, R105). -/
theorem bitmapPart_srcWrite (a : Nat) (v : Byte) (s : State) :
    bitmapPart (srcWrite a v s) = bitmapPart s := by
  simp [bitmapPart]

/-- A register write leaves the bitmap's part unless it is a command (R34, R105). -/
theorem bitmapPart_hostRegWrite {i : Nat} {v : Word} {s t : State} (hi : i ≠ 4)
    (h : hostRegWrite i v s = .next t) : bitmapPart t = bitmapPart s := by
  obtain ⟨h4, -⟩ | ⟨-, r, -, hw⟩ | ⟨-, hw⟩ := hostRegWrite_cases i v s
  · exact absurd h4 hi
  · rw [hw] at h; cases h; exact bitmapPart_storeReg r v s
  · rw [hw] at h; cases h; rfl

/-- ROTATE works on the bitmap's part alone: its checks read nothing else, and both an error entry and
the rotated bitmap are taken from there (R71, R105). -/
theorem exec_rotate_bitmapPart {angle : Nat} {s t : State} (h : exec (.rotate angle) s = .next t) :
    exec (.rotate angle) (bitmapPart s) = .next (bitmapPart t) := by
  cases he : s.err with
  | some e =>
    have hi : Instr.rotate angle ≠ .clear := nofun
    rw [exec_of_error he hi] at h; cases h
    exact exec_of_error (s := bitmapPart s) he hi
  | none =>
    have he' : (bitmapPart s).err = none := he
    cases hr : Rotation.ofDegrees angle with
    | none =>
      rw [exec_rotate_badAngle he hr] at h; cases h
      exact exec_rotate_badAngle he' hr
    | some r =>
      rw [exec_rotate_legalAngle he hr] at h
      rw [exec_rotate_legalAngle he' hr]
      split_ifs at h with hk h0 hc <;> cases h
      · exact if_pos hk
      · exact (if_neg hk).trans (if_pos h0)
      · exact (if_neg hk).trans ((if_neg h0).trans (if_pos hc))
      · exact (if_neg hk).trans ((if_neg h0).trans (if_neg hc))

/-- ROTATE keeps two states alike in the bitmap's part. -/
theorem bitmapPart_eq_of_exec_rotate {angle : Nat} {s t u u' : State}
    (h : bitmapPart t = bitmapPart s) (hu : exec (.rotate angle) s = .next u)
    (hu' : exec (.rotate angle) t = .next u') : bitmapPart u' = bitmapPart u := by
  have hs := exec_rotate_bitmapPart hu
  have ht := exec_rotate_bitmapPart hu'
  rw [h, hs] at ht
  exact (Host.Outcome.next.inj ht).symm

/-- Settles O52: the write leaves the bitmap's part of the state, and that is all a later ROTATE depends
on. -/
theorem operandWritesLeaveBitmap : Obligations.OperandWritesLeaveBitmap := by
  intro s t tr rest angle hnext hwrite ht
  have hpart : bitmapPart t = bitmapPart s := by
    obtain ⟨i, v, rfl, hi⟩ | ⟨a, v, rfl⟩ := hwrite
    · rw [step_regWrite hnext] at ht
      have hi4 : i ≠ 4 := by omega
      exact bitmapPart_hostRegWrite (s := { s with script := rest }) hi4 ht
    · rw [step_srcWrite hnext] at ht; cases ht
      exact bitmapPart_srcWrite a v _
  obtain ⟨hbitmap, hsize, herr⟩ := bitmap_eq_of_bitmapPart_eq hpart
  exact ⟨hbitmap, hsize, herr, fun _ _ hu hu' =>
    bitmap_eq_of_bitmapPart_eq (bitmapPart_eq_of_exec_rotate hpart hu hu')⟩

/-! ### Every step has a successor -/

/-- Every command answers a next state, in the error state and outside it (R91, R109). -/
theorem exists_exec_eq_next (i : Instr) (s : State) : ∃ t, exec i s = .next t := by
  cases he : s.err with
  | some e =>
    by_cases hi : i = .clear
    · exact ⟨_, hi ▸ exec_clear s⟩
    · exact ⟨s, exec_of_error he hi⟩
  | none =>
    cases i with
    | pack =>
      cases hf : formatStrategy s.cfg s.format with
      | none => exact ⟨_, exec_pack_unsupported he hf⟩
      | some strat => rw [exec_pack_supported he hf]; split_ifs <;> exact ⟨_, rfl⟩
    | rotate angle =>
      cases hr : Rotation.ofDegrees angle with
      | none => exact ⟨_, exec_rotate_badAngle he hr⟩
      | some r => rw [exec_rotate_legalAngle he hr]; split_ifs <;> exact ⟨_, rfl⟩
    | stride => exact ⟨_, exec_stride_of_none he⟩
    | bitaddr => exact ⟨_, exec_bitaddr_of_none he⟩
    | tailmask => exact ⟨_, exec_tailmask_of_none he⟩
    | clear => exact ⟨_, exec_clear s⟩

/-- A write of any word to `CMD` answers a next state, an `ILLEGAL` one included (R57, R109). -/
theorem exists_cmdWrite_eq_next (w : Word) (s : State) : ∃ t, cmdWrite w s = .next t := by
  obtain ⟨i, -, hc⟩ | ⟨r, -, hc⟩ := cmdWrite_cases w s <;> rw [hc]
  · exact exists_exec_eq_next i s
  · obtain ⟨-, h⟩ | ⟨-, h⟩ := execIllegal_cases s
    · exact ⟨_, h⟩
    · exact ⟨_, h⟩

/-- Every register write answers a next state (R34, R109). -/
theorem exists_hostRegWrite_eq_next (i : Nat) (v : Word) (s : State) :
    ∃ t, hostRegWrite i v s = .next t := by
  obtain ⟨-, hw⟩ | ⟨-, r, -, hw⟩ | ⟨-, hw⟩ := hostRegWrite_cases i v s
  · rw [hw]; exact exists_cmdWrite_eq_next v s
  · exact ⟨_, hw⟩
  · exact ⟨_, hw⟩

/-- Every event of the host answers a next state (R109). -/
theorem exists_hostEvent_eq_next (e : HostEvent) (s : State) : ∃ t, hostEvent e s = .next t := by
  cases e with
  | reset => exact ⟨_, rfl⟩
  | transaction tr =>
    cases tr with
    | regWrite i v => exact exists_hostRegWrite_eq_next i v s
    | regRead _ | srcRead _ | srcWrite _ _ | pbRead _ => exact ⟨_, rfl⟩

/-- Settles O9: a step is idle or the next event, and every event has a next state. -/
theorem everyStepHasSuccessor : Obligations.EveryStepHasSuccessor := by
  intro s
  cases hs : s.script with
  | nil => exact ⟨s, step_nil hs⟩
  | cons e rest => rw [step_cons hs]; exact exists_hostEvent_eq_next e _

end Sys2Proof.Proofs
end

section
/-! The command words of R54 to R57 as numbers: decoding and encoding are inverse, and the rows of the
opcode map tell the commands apart. -/

open Sys2Proof Sys2Proof.Machine

namespace Sys2Proof.Proofs

/-! ### The word of a command as a number -/

/-- The command word as a number: the opcode, and ROTATE's angle in the high half (R54, R56). -/
def wordNumber : Instr → Nat
  | .pack => 1
  | .rotate angle => angle * 65536 + 2
  | .stride => 3
  | .bitaddr => 4
  | .tailmask => 5
  | .clear => 6

/-- The word of a well-formed command has the command's number (R54, R60). -/
theorem encode_toNat {i : Instr} (hi : i.wf = true) : (encode i).toNat = wordNumber i := by
  cases i with
  | rotate angle => exact encode_rotate_toNat angle (of_decide_eq_true hi)
  | pack | stride | bitaddr | tailmask | clear => rfl

/-- A command whose number is a word's is well-formed: the angle fits the high half (R54, R55). -/
theorem wf_of_wordNumber {w : Word} {i : Instr} (h : w.toNat = wordNumber i) : i.wf = true := by
  cases i with
  | rotate angle =>
    have hw : wordNumber (.rotate angle) < 2 ^ 32 := h ▸ w.isLt
    rw [wordNumber] at hw
    exact decide_eq_true (by omega)
  | pack | stride | bitaddr | tailmask | clear => rfl

/-! ### Decoding by numbers -/

/-- `RSV` is 0 exactly when its digit of the word is (R55). -/
theorem rsvField_eq_zero_iff (w : Word) : rsvField w = 0 ↔ w.toNat / 256 % 256 = 0 :=
  not_iff_not.mp (rsvField_ne_zero_iff w)

/-- `IMM16` is 0 exactly when the high half of the word is (R55). -/
theorem imm16Field_eq_zero_iff (w : Word) : imm16Field w = 0 ↔ w.toNat / 65536 = 0 :=
  not_iff_not.mp (imm16Field_ne_zero_iff w)

/-- A word that decodes to a command is the command's number: `RSV` is 0, and so is `IMM16` unless the
command is ROTATE (R57). -/
theorem toNat_of_decode {w : Word} {i : Instr} (h : decode w = .ok i) : w.toNat = wordNumber i := by
  unfold decode at h
  split at h
  case isFalse => cases h
  case isTrue hrsv =>
    rw [rsvField_eq_zero_iff] at hrsv
    split at h
    case h_1 hopc | h_3 hopc | h_4 hopc | h_5 hopc | h_6 hopc =>
      obtain ⟨himm, rfl⟩ := (withoutImmediate_ok_iff w _ _).mp h
      rw [imm16Field_eq_zero_iff] at himm
      rw [opcField_toNat] at hopc
      rw [wordNumber]; omega
    case h_2 hopc =>
      cases h
      rw [opcField_toNat] at hopc
      rw [wordNumber, imm16Field_toNat]; omega
    case h_7 => cases h

/-- The word of ROTATE decodes to ROTATE by the angle in its high half (R55, R57). -/
theorem decode_rotate {w : Word} {angle : Nat} (h : w.toNat = wordNumber (.rotate angle)) :
    decode w = .ok (.rotate angle) := by
  rw [wordNumber] at h
  have hrsv : rsvField w = 0 := by rw [rsvField_eq_zero_iff]; omega
  have hopc : (opcField w).toNat = 2 := by rw [opcField_toNat]; omega
  have himm : (imm16Field w).toNat = angle := by rw [imm16Field_toNat]; omega
  rw [decode, if_pos hrsv, hopc]
  exact congrArg (Except.ok ∘ Instr.rotate) himm

/-- A word decodes to a command exactly when it is the command's number (R54 to R57). -/
theorem decode_ok_iff (w : Word) (i : Instr) : decode w = .ok i ↔ w.toNat = wordNumber i := by
  refine ⟨toNat_of_decode, fun h => ?_⟩
  have hw : w = encode i :=
    BitVec.eq_of_toNat_eq (h.trans (encode_toNat (wf_of_wordNumber h)).symm)
  cases i with
  | rotate angle => exact decode_rotate h
  | pack | stride | bitaddr | tailmask | clear => rw [hw]; decide

/-- Settles O2: the word of a well-formed command is its number, and so decodes to it. -/
theorem decodeOfEncode : Obligations.DecodeOfEncode := fun i hi =>
  (decode_ok_iff (encode i) i).mpr (encode_toNat hi)

/-- Settles O3: the word is the command's number, which fits a word and is the number of its encoding. -/
theorem encodeOfDecode : Obligations.EncodeOfDecode := by
  intro w i h
  have hnumber := (decode_ok_iff w i).mp h
  have hi := wf_of_wordNumber hnumber
  exact ⟨hi, BitVec.eq_of_toNat_eq ((encode_toNat hi).trans hnumber.symm)⟩

/-- Settles O1: each word's number is its command's, and R57's reason is read off the other three. -/
theorem commandWordsDecode : Obligations.CommandWordsDecode := by
  simp only [Obligations.CommandWordsDecode, decode_ok_iff]
  decide

/-! ### The rows of the opcode map -/

/-- The word of a well-formed command is in the command's row (R56). -/
theorem encode_and_mask {i : Instr} (hi : i.wf = true) :
    encode i &&& (opcodeRow i).mask = (opcodeRow i).matchWord := by
  cases i with
  | pack => exact Laws.TableRow.pack hi
  | rotate angle => exact Laws.TableRow.rotate angle hi
  | stride => exact Laws.TableRow.stride hi
  | bitaddr => exact Laws.TableRow.bitaddr hi
  | tailmask => exact Laws.TableRow.tailmask hi
  | clear => exact Laws.TableRow.clear hi

/-- A word in a command's row is that command, at some angle if it is ROTATE (R56). -/
theorem exists_decode_of_row {w : Word} {i : Instr}
    (h : w &&& (opcodeRow i).mask = (opcodeRow i).matchWord) :
    ∃ j, decode w = .ok j ∧ opcodeRow j = opcodeRow i := by
  cases i with
  | rotate angle =>
    have hlow : w.toNat % 65536 = 2 := by
      rw [← Nat.and_two_pow_sub_one_eq_mod w.toNat 16]
      exact (BitVec.toNat_and w _).symm.trans (congrArg BitVec.toNat h)
    refine ⟨.rotate (w.toNat / 65536), (decode_ok_iff w _).mpr ?_, rfl⟩
    rw [wordNumber]; omega
  | pack | stride | bitaddr | tailmask | clear =>
    have hw : w = _ := (BitVec.and_allOnes (x := w)).symm.trans h
    refine ⟨_, ?_, rfl⟩
    exact (decode_ok_iff w _).mpr (congrArg BitVec.toNat hw)

/-- Every row of the opcode map is a command's (R56). -/
theorem exists_row_eq {row : OpcodeRow} (h : row ∈ opcodeMap) : ∃ i, row = opcodeRow i := by
  simp only [opcodeMap, List.mem_cons, List.not_mem_nil, or_false] at h
  obtain h | h | h | h | h | h := h <;> exact ⟨_, h⟩

/-- A word in a row of the opcode map decodes to a command of that row (R56). -/
theorem exists_decode_of_mem_opcodeMap {w : Word} {row : OpcodeRow} (hrow : row ∈ opcodeMap)
    (h : w &&& row.mask = row.matchWord) : ∃ i, decode w = .ok i ∧ opcodeRow i = row := by
  obtain ⟨i, rfl⟩ := exists_row_eq hrow
  exact exists_decode_of_row h

/-- Settles O4: a word that decodes is its command's encoding, which is in the command's row; and a word
in two rows decodes to one command, whose row both are. -/
theorem decodeMatchesOpcodeRows : Obligations.DecodeMatchesOpcodeRows := by
  refine ⟨rfl, fun w i h => ?_, fun w row => exists_decode_of_mem_opcodeMap,
    fun w row row' hrow hrow' h h' => ?_⟩
  · obtain ⟨hi, rfl⟩ := encodeOfDecode w i h
    exact encode_and_mask hi
  · obtain ⟨i, hi, rfl⟩ := exists_decode_of_mem_opcodeMap hrow h
    obtain ⟨i', hi', rfl⟩ := exists_decode_of_mem_opcodeMap hrow' h'
    obtain rfl : i = i' := Except.ok.inj (hi.symm.trans hi')
    rfl

end Sys2Proof.Proofs
end

section
/-! The machine's invariant: reset meets it, every step keeps it, and what it says of the states a run
reaches (R26, R31, R102). -/

open Sys2Proof Sys2Proof.Machine Sys2Proof.Claims

namespace Sys2Proof.Proofs

/-! ### Every command keeps the invariant -/

/-- The padding of every 1-bit strategy is clear (R67, R68). -/
theorem getBit_pack_padding {strat : Strategy} (hk : strat.kind = .bits1) (rd : Nat → Byte)
    {w h x y : Nat} (hy : y < h) (hx : w ≤ x) (hx8 : x < 8 * stride1 w) :
    getBit (strat.pack rd w h) (stride1 w) x y = false := by
  cases strat with
  | mono => exact getBit_packMono_padding rd hy hx hx8
  | classify n => exact getBit_packClassify_padding rd hy hx hx8
  | rawCopy n => cases hk

/-- A 1-bit strategy packs into whole bytes of pixels (R19, R63). -/
theorem dstStride_of_bits1 {strat : Strategy} (hk : strat.kind = .bits1) (w : Nat) :
    strat.dstStride w = stride1 w := by
  cases strat with
  | mono | classify => rfl
  | rawCopy => cases hk

/-- A raw strategy packs into whole pixels of R41's bytes (R19, R63). -/
theorem dstStride_of_raw {p : Config.Params} {v : Word} {strat : Strategy}
    (hf : formatStrategy p v = some strat) (hk : strat.kind = .raw) (w : Nat) :
    ∃ n, (n = 3 ∨ n = 4 ∨ n = p.bpp16) ∧ strat.dstStride w = w * n := by
  cases strat with
  | mono | classify => cases hk
  | rawCopy n => exact ⟨n, rawCopy_bpp hf, rfl⟩

/-- A strategy always makes a bitmap (R63). -/
theorem kind_ne_absent (strat : Strategy) : strat.kind ≠ .absent := by
  cases strat <;> nofun

/-- PACK keeps the invariant: the bitmap it makes fills its rows and fits (R63, R70). -/
theorem execPack_inv {s t : State} (hs : s.Inv) (h : execPack s = .next t) : t.Inv := by
  obtain ⟨-, rfl⟩ | ⟨-, -, e, rfl⟩ | ⟨he, strat, ⟨hf, hw, hh, -, hfits⟩, rfl⟩ := execPack_cases h
  · exact hs
  · exact enterError_inv hs e
  · rw [← dstStride_eq] at hfits
    exact newPB_inv hs he (kind_ne_absent strat) hw hh hfits (length_pack _ _ _ strat)
      (fun hk => ⟨dstStride_of_bits1 hk _, fun _ hy _ => getBit_pack_padding hk _ hy⟩)
      (fun hk => dstStride_of_raw hf hk _)

/-- A rotated image has at least a pixel when the image has (R76). -/
theorem size2_pos (r : Rotation) {w h : Nat} (hw : 1 ≤ w) (hh : 1 ≤ h) :
    1 ≤ (r.size2 w h).1 ∧ 1 ≤ (r.size2 w h).2 := by
  cases r with
  | deg0 | deg180 => exact ⟨hw, hh⟩
  | deg90 | deg270 => exact ⟨hh, hw⟩

/-- ROTATE keeps the invariant: the destination has at least a pixel, and its padding is clear (R78,
R79 (a)). -/
theorem execRotate_inv {angle : Nat} {s t : State} (hs : s.Inv) (h : execRotate angle s = .next t) :
    t.Inv := by
  obtain ⟨-, rfl⟩ | ⟨-, e, rfl⟩ | ⟨-, -, -, rfl⟩ | ⟨he, hk, r, -, -, hfits, rfl⟩ :=
    execRotate_cases h
  · exact hs
  · exact enterError_inv hs e
  · exact hs
  · have hb := hs.bitmap (by simp [hk])
    obtain ⟨hw2, hh2⟩ := size2_pos r hb.width_pos hb.height_pos
    rw [← width2_toNat] at hw2
    rw [← height2_toNat] at hh2
    refine newPB_inv hs he (by decide) hw2 hh2 hfits (length_rotateBits _ _ _ _ _ _ _)
      (fun _ => ⟨rfl, fun y _ x hx hx8 => ?_⟩) (by simp)
    rw [width2_toNat] at hx hx8 ⊢
    rw [height2_toNat]
    exact getBit_rotateBits_padding _ _ _ _ r hx hx8

/-- Every command keeps the invariant. -/
theorem exec_inv {i : Instr} {s t : State} (hs : s.Inv) (h : exec i s = .next t) : t.Inv := by
  cases he : s.err with
  | some e =>
    by_cases hi : i = .clear
    · subst hi; cases h; exact leaveError_inv hs
    · rw [exec_of_error he hi] at h; cases h; exact hs
  | none =>
    cases i with
    | pack => exact execPack_inv hs h
    | rotate angle => exact execRotate_inv hs h
    | stride => rw [exec_stride_of_none he] at h; cases h; exact setResult0_inv hs _
    | bitaddr =>
      rw [exec_bitaddr_of_none he] at h; cases h
      exact setResult1_inv (setResult0_inv hs (BitVec.ofNat 32 (bytePos s.arg.toNat)))
        (bitMask s.arg.toNat)
    | tailmask => rw [exec_tailmask_of_none he] at h; cases h; exact setResult0_inv hs _
    | clear => cases h; exact leaveError_inv hs

/-! ### Every event keeps the invariant -/

/-- A write of any word to `CMD` keeps the invariant (R57, R91). -/
theorem cmdWrite_inv {w : Word} {s t : State} (hs : s.Inv) (h : cmdWrite w s = .next t) : t.Inv := by
  obtain ⟨i, -, hc⟩ | ⟨r, -, hc⟩ := cmdWrite_cases w s <;> rw [hc] at h
  · exact exec_inv hs h
  · obtain ⟨-, hill⟩ | ⟨-, hill⟩ := execIllegal_cases s <;> rw [hill] at h <;> cases h
    · exact hs
    · exact enterError_inv hs _

/-- A register write keeps the invariant (R34). -/
theorem hostRegWrite_inv {i : Nat} {v : Word} {s t : State} (hs : s.Inv)
    (h : hostRegWrite i v s = .next t) : t.Inv := by
  obtain ⟨-, hw⟩ | ⟨-, r, -, hw⟩ | ⟨-, hw⟩ := hostRegWrite_cases i v s <;> rw [hw] at h
  · exact cmdWrite_inv hs h
  · cases h; exact storeReg_inv hs r v
  · cases h; exact hs

/-- Every event of the host keeps the invariant (R33, R98). -/
theorem hostEvent_inv {e : HostEvent} {s t : State} (hs : s.Inv) (h : hostEvent e s = .next t) :
    t.Inv := by
  cases e with
  | reset => cases h; exact resetMachine_inv hs.cfg_wf
  | transaction tr =>
    cases tr with
    | regWrite i v => exact hostRegWrite_inv hs h
    | srcWrite a v => cases h; exact srcWrite_inv hs a v
    | regRead _ | srcRead _ | pbRead _ => cases h; exact reply_inv hs _

/-- Settles O54: a step is idle or its next event, and every event keeps the invariant. -/
theorem stepKeepsInvariant : Obligations.StepKeepsInvariant := by
  intro s t hs ht
  obtain ⟨-, rfl⟩ | ⟨e, rest, -, he⟩ := step_cases ht
  · exact hs
  · exact hostEvent_inv (withScript_inv hs rest) he

/-! ### Reset and the reachable states -/

/-- The state after reset meets the invariant: but for the number of resets it is a reset machine
(R31, R98). -/
theorem resetWith_inv {p : Config.Params} (hp : p.wf) : (State.resetWith p).Inv :=
  inv_of_same (resetMachine_inv (s := State.resetWith p) hp) rfl ⟨rfl, rfl⟩ (by simp) (by simp)
    rfl rfl rfl rfl rfl rfl rfl

/-- Settles O55: for all parameters by `resetWith_inv`, and those of the test vectors are legal. -/
theorem resetMeetsInvariant : Obligations.ResetMeetsInvariant :=
  ⟨fun _ => resetWith_inv, resetWith_inv (by decide)⟩

/-- Every reachable state meets the invariant. -/
theorem reachable_inv {s : State} (h : Reachable s) : s.Inv := by
  induction h with
  | start p script hp => exact withScript_inv (resetWith_inv hp) script
  | step _ hstep ih => exact stepKeepsInvariant _ _ ih hstep

/-- Row `y`'s last byte lies in a 1-bit bitmap, and its padding is zero (R26 (d)). -/
theorem exists_lastByte {s : State} (hs : s.BitmapInv) (hk : s.pbKind = .bits1) {y : Nat}
    (hy : y < s.pbHeight.toNat) :
    ∃ b : Byte, s.pb[y * s.pbStride.toNat + s.pbStride.toNat - 1]? = some b ∧
      b &&& ~~~tailMask s.pbWidth.toNat = 0 := by
  have hstride : 1 ≤ s.pbStride.toNat := by
    have hw := hs.width_pos
    rw [hs.stride_bits1 hk, stride1_eq]; omega
  have hin : y * s.pbStride.toNat + s.pbStride.toNat - 1 < s.pb.length := by
    rw [hs.length_eq, hs.size_eq, Nat.add_sub_assoc hstride]
    exact rowOffset_lt (by omega) hy
  have hb := List.getElem?_eq_getElem hin
  exact ⟨_, hb, hs.padding_zero hk y hy _ hb⟩

/-- Under the invariant the size is the product of stride and height and fits `PB`, and `PB` has as many
bytes; without a bitmap all of these are 0 (R25, R26 (b)). -/
theorem size_of_inv {s : State} (hs : s.Inv) :
    (s.pbSize.toNat = s.pbStride.toNat * s.pbHeight.toNat ∧ s.pbSize.toNat ≤ s.cfg.pbCap) ∧
      s.pb.length = s.pbSize.toNat := by
  by_cases hk : s.pbKind = .absent
  · obtain ⟨-, hheight, hstride, hsize, hpb⟩ := hs.absent_zero hk
    simp [hheight, hstride, hsize, hpb]
  · have hb := hs.bitmap hk
    exact ⟨⟨hb.size_eq, hb.size_le⟩, hb.length_eq⟩

/-- Settles O56: a reachable state meets the invariant, which says all of it. -/
theorem reachableStates : Obligations.ReachableStates := by
  intro s hreach
  have hs := reachable_inv hreach
  obtain ⟨hsize, hlen⟩ := size_of_inv hs
  refine ⟨fun hk => ?_, fun he => ?_, hsize, fun hk => ?_, hlen⟩
  · have hb := hs.bitmap (by simp [hk])
    exact ⟨(hb.stride_bits1 hk).trans (stride1_eq _), fun y hy => exists_lastByte hb hk hy⟩
  · have hk := hs.err_absent he
    obtain ⟨hw, hh, hst, hsz, -⟩ := hs.absent_zero hk
    exact ⟨hk, hw, hh, hst, hsz⟩
  · exact ⟨(hs.bitmap hk).width_pos, (hs.bitmap hk).height_pos⟩

/-! ### What the writer reads -/

/-- Under the invariant there is nothing to read without a result: no bitmap, or an error, which leaves
none (R16, R103). -/
theorem absent_of_not_holdsResult {s : State} (hs : s.Inv) (h : ¬ s.holdsResult) :
    s.pbKind = .absent := by
  by_cases he : s.err = none
  · exact not_not.mp fun hk => h ⟨he, hk⟩
  · exact hs.err_absent he

/-- Under the invariant the writer reads the bytes of `PB` (R36, R103). -/
theorem writerOutput_eq_pb {s : State} (hs : s.Inv) : s.writerOutput = s.pb := by
  obtain ⟨-, hlen⟩ := size_of_inv hs
  apply List.ext_getElem?
  intro a
  rw [State.writerOutput, List.getElem?_map]
  by_cases ha : a < s.pbSize.toNat
  · have hk : s.pbKind ≠ .absent := fun hk => by
      obtain ⟨-, -, -, hsize, -⟩ := hs.absent_zero hk
      simp [hsize] at ha
    rw [pbRead_inside hs hk ha, List.getElem?_range ha, Option.map_some]
  · rw [List.getElem?_eq_none (by omega : s.pb.length ≤ a), List.getElem?_eq_none (by simpa using ha)]
    rfl

/-- Settles O57: without a result there is no bitmap, and then `PB` has no bytes. -/
theorem writerReadsTheBitmap : Obligations.WriterReadsTheBitmap := by
  refine fun s hs => ⟨writerOutput_eq_pb hs, fun h => ?_⟩
  obtain ⟨-, -, -, -, hpb⟩ := hs.absent_zero (absent_of_not_holdsResult hs h)
  rw [writerOutput_eq_pb hs, hpb]

end Sys2Proof.Proofs
end

section
/-! What a step does to the parts of the state: the dispatch of a `CMD` write, what each command and each
event leaves alone, and reset (R16, R31, R91, R98, R106). -/

open Sys2Proof Sys2Proof.Machine Sys2Proof.Claims

namespace Sys2Proof.Proofs

/-! ### Idle steps and commands -/

/-- A legal word written to `CMD` runs its command (R91). -/
theorem cmdWrite_of_ok {w : Word} {i : Instr} (h : decode w = .ok i) (s : State) :
    cmdWrite w s = exec i s := by
  rw [cmdWrite, h]

/-- A step that takes a write to `CMD` performs it on the rest of the script (R34). -/
theorem step_cmdWrite {s : State} {w : Word} {rest : List HostEvent} (h : next s (.regWrite 4 w) rest) :
    step s = cmdWrite w { s with script := rest } :=
  step_regWrite h

/-- Settles O6: the step performs the `CMD` write, and the word is the command's. -/
theorem stepRunsDecodedCommand : Obligations.StepRunsDecodedCommand := fun s _ rest _ h hw =>
  (step_cmdWrite h).trans (cmdWrite_of_ok hw { s with script := rest })

/-- Settles O7: the placed word is the command's, decodes to it, and is taken from the script again. -/
theorem placedCommandRuns : Obligations.PlacedCommandRuns := by
  intro s i hi
  have hnext : next (s.withFetchWord 32 (encode i).toNat) (.regWrite 4 (encode i)) s.script := by
    rw [State.withFetchWord, tableWord_toNat]; rfl
  exact stepRunsDecodedCommand _ _ _ _ hnext (decodeOfEncode i hi)

/-- Settles O8: `step_nil`. -/
theorem idleStepChangesNothing : Obligations.IdleStepChangesNothing := fun _ => step_nil

/-- The word of CLEAR leaves the error state, whatever the state was (R84, R91). -/
theorem cmdWrite_clear (s : State) : cmdWrite 0x00000006 s = .next (cleared s) :=
  (cmdWrite_of_ok (i := .clear) (by decide) s).trans (exec_clear s)

/-- Settles O19: in the error state only CLEAR's word has an effect; outside it a word has its command's
effect or the `ILLEGAL` word's. -/
theorem commandDispatch : Obligations.CommandDispatch := by
  refine fun s w rest h => ⟨fun _ hw => ?_, fun he hw => ?_, fun he r hr => ?_, fun _ i hi => ?_⟩
  · rw [step_cmdWrite h, hw, cmdWrite_clear]
  · obtain ⟨e, he⟩ := Option.ne_none_iff_exists'.mp he
    rw [step_cmdWrite h, cmdWrite_of_error (s := { s with script := rest }) he hw]
  · rw [step_illegalWord h hr, execIllegal_of_none (s := { s with script := rest }) he]
  · rw [step_cmdWrite h, cmdWrite_of_ok hi]

/-! ### What every command leaves alone -/

/-- The state as the commands leave it: the operand registers, `SRC`, the parameters and the model's own
record, with no error, no bitmap and no results. -/
def hostPart (s : State) : State := setResult1 0 (setResult0 0 (leaveError s))

/-- No command changes the host's part of the state (R63, R71, R80, R106). -/
theorem hostPart_exec {i : Instr} {s t : State} (h : exec i s = .next t) : hostPart t = hostPart s := by
  cases he : s.err with
  | some e =>
    by_cases hi : i = .clear
    · subst hi; cases h; rfl
    · rw [exec_of_error he hi] at h; cases h; rfl
  | none =>
    cases i with
    | pack =>
      obtain ⟨-, rfl⟩ | ⟨-, -, e, rfl⟩ | ⟨-, strat, -, rfl⟩ := execPack_cases h <;> rfl
    | rotate angle =>
      obtain ⟨-, rfl⟩ | ⟨-, e, rfl⟩ | ⟨-, -, -, rfl⟩ | ⟨-, -, r, -, -, -, rfl⟩ :=
        execRotate_cases h <;> rfl
    | stride => rw [exec_stride_of_none he] at h; cases h; rfl
    | bitaddr => rw [exec_bitaddr_of_none he] at h; cases h; rfl
    | tailmask => rw [exec_tailmask_of_none he] at h; cases h; rfl
    | clear => cases h; rfl

/-- No word written to `CMD` changes the host's part of the state (R57, R106). -/
theorem hostPart_cmdWrite {w : Word} {s t : State} (h : cmdWrite w s = .next t) :
    hostPart t = hostPart s := by
  obtain ⟨i, -, hc⟩ | ⟨r, -, hc⟩ := cmdWrite_cases w s <;> rw [hc] at h
  · exact hostPart_exec h
  · obtain ⟨-, hill⟩ | ⟨-, hill⟩ := execIllegal_cases s <;> rw [hill] at h <;> cases h <;> rfl

/-- `SRC` and what it reads as are the host's part. -/
theorem src_eq_of_hostPart_eq {s t : State} (h : hostPart t = hostPart s) :
    t.src = s.src ∧ ∀ a, srcRead t a = srcRead s a := by
  have hsrc : t.src = s.src := (congrArg State.src h :)
  exact ⟨hsrc, srcRead_congr (congrArg State.cfg h :) hsrc (congrArg State.srcEpoch h :)⟩

/-- PACK, ROTATE and CLEAR leave the result registers (R21, R22). -/
theorem results_exec {i : Instr} {s t : State} (hi : i = .pack ∨ i = .clear ∨ ∃ angle, i = .rotate angle)
    (h : exec i s = .next t) : t.result0 = s.result0 ∧ t.result1 = s.result1 := by
  obtain rfl | rfl | ⟨angle, rfl⟩ := hi
  · obtain ⟨-, rfl⟩ | ⟨-, -, e, rfl⟩ | ⟨-, strat, -, rfl⟩ := execPack_cases h <;> exact ⟨rfl, rfl⟩
  · cases h; exact ⟨rfl, rfl⟩
  · obtain ⟨-, rfl⟩ | ⟨-, e, rfl⟩ | ⟨-, -, -, rfl⟩ | ⟨-, -, r, -, -, -, rfl⟩ :=
      execRotate_cases h <;> exact ⟨rfl, rfl⟩

/-- A utility command writes the result registers alone, and only BITADDR changes `RESULT1` (R80 to
R83). -/
theorem exec_utility {i : Instr} {s t : State} (hi : i = .stride ∨ i = .bitaddr ∨ i = .tailmask)
    (h : exec i s = .next t) :
    ∃ r0 r1, t = setResult1 r1 (setResult0 r0 s) ∧ (i ≠ .bitaddr → r1 = s.result1) := by
  cases he : s.err with
  | some e =>
    have hclear : i ≠ .clear := by rintro rfl; simp at hi
    rw [exec_of_error he hclear] at h; cases h
    exact ⟨s.result0, s.result1, rfl, fun _ => rfl⟩
  | none =>
    obtain rfl | rfl | rfl := hi
    · rw [exec_stride_of_none he] at h; cases h
      exact ⟨BitVec.ofNat 32 (stride1 s.arg.toNat), s.result1, rfl, fun _ => rfl⟩
    · rw [exec_bitaddr_of_none he] at h; cases h
      exact ⟨BitVec.ofNat 32 (bytePos s.arg.toNat), (bitMask s.arg.toNat).setWidth 32, rfl,
        fun hne => absurd rfl hne⟩
    · rw [exec_tailmask_of_none he] at h; cases h
      exact ⟨(tailMask s.arg.toNat).setWidth 32, s.result1, rfl, fun _ => rfl⟩

/-- Settles O50: the host's part by `hostPart_exec`; the utilities write the result registers alone. -/
theorem commandFrame : Obligations.CommandFrame := by
  intro i s t h
  have hpart := hostPart_exec h
  refine ⟨⟨(congrArg State.width hpart :), (congrArg State.height hpart :),
    (congrArg State.format hpart :), (congrArg State.arg hpart :), (congrArg State.cfg hpart :),
    (congrArg State.srcEpoch hpart :), (congrArg State.script hpart :),
    (congrArg State.replies hpart :)⟩, (src_eq_of_hostPart_eq hpart).2, fun hi => results_exec hi h,
    fun hi => ?_, fun hi => ?_⟩
  · obtain ⟨r0, r1, rfl, -⟩ := exec_utility hi h
    exact ⟨rfl, rfl, rfl, fun _ => rfl⟩
  · obtain ⟨r0, r1, rfl, hr1⟩ := exec_utility (hi.imp_right .inr) h
    exact hr1 (by rintro rfl; simp at hi)

/-! ### What every event leaves alone -/

/-- What an event of the host can be: reset; a command; a write to `SRC`; or one that touches neither the
bitmap's side of the state nor `SRC` (R33, R98). -/
theorem hostEvent_cases {e : HostEvent} {s t : State} (h : hostEvent e s = .next t) :
    (e = .reset ∧ t = resetMachine s) ∨
    (∃ w, e = .transaction (.regWrite 4 w) ∧ cmdWrite w s = .next t) ∨
    (∃ a v, e = .transaction (.srcWrite a v) ∧ t = srcWrite a v s) ∨
    (bitmapPart t = bitmapPart s ∧ t.src = s.src ∧ t.srcEpoch = s.srcEpoch) := by
  cases e with
  | reset => cases h; exact .inl ⟨rfl, rfl⟩
  | transaction tr =>
    cases tr with
    | regWrite i v =>
      obtain ⟨rfl, hw⟩ | ⟨-, r, -, hw⟩ | ⟨-, hw⟩ := hostRegWrite_cases i v s
      · exact .inr (.inl ⟨v, rfl, hw.symm.trans h⟩)
      · cases hw.symm.trans h
        exact .inr (.inr (.inr ⟨bitmapPart_storeReg r v s, storeReg_src r v s, storeReg_srcEpoch r v s⟩))
      · cases hw.symm.trans h
        exact .inr (.inr (.inr ⟨rfl, rfl, rfl⟩))
    | srcWrite a v => cases h; exact .inr (.inr (.inl ⟨a, v, rfl, rfl⟩))
    | regRead _ | srcRead _ | pbRead _ => cases h; exact .inr (.inr (.inr ⟨rfl, rfl, rfl⟩))

/-- A step is idle, or its next event performed, the event taken from the script. -/
theorem step_event_cases {s t : State} (h : step s = .next t) :
    t = s ∨ ∃ e rest, s.script.head? = some e ∧ hostEvent e (withScript rest s) = .next t := by
  obtain ⟨-, rfl⟩ | ⟨e, rest, hs, he⟩ := step_cases h
  · exact .inl rfl
  · exact .inr ⟨e, rest, by rw [hs, List.head?_cons], he⟩

/-- An event that is neither a reset nor a write to `SRC` leaves `SRC` (R106). -/
theorem src_hostEvent {e : HostEvent} {s t : State} (h : hostEvent e s = .next t) (hreset : e ≠ .reset)
    (hwrite : ∀ a v, e ≠ .transaction (.srcWrite a v)) :
    t.src = s.src ∧ ∀ a, srcRead t a = srcRead s a := by
  obtain ⟨rfl, -⟩ | ⟨w, -, hc⟩ | ⟨a, v, rfl, -⟩ | ⟨hpart, hsrc, hepoch⟩ := hostEvent_cases h
  · exact absurd rfl hreset
  · exact src_eq_of_hostPart_eq (hostPart_cmdWrite hc)
  · exact absurd rfl (hwrite a v)
  · exact ⟨hsrc, srcRead_congr (congrArg State.cfg hpart :) hsrc hepoch⟩

/-- Settles O51: a step is idle or its next event. -/
theorem onlySrcWriteChangesSource : Obligations.OnlySrcWriteChangesSource := by
  intro s t ht hreset hwrite
  obtain rfl | ⟨e, rest, hs, he⟩ := step_event_cases ht
  · exact ⟨rfl, fun _ => rfl⟩
  · rw [hs] at hreset hwrite
    exact src_hostEvent (s := withScript rest s) he (fun h => hreset (congrArg some h))
      (fun a v h => hwrite a v (congrArg some h))

/-- A byte of `SRC` reads the same after an event that is neither a reset nor a write to it (R35,
R106). -/
theorem srcRead_hostEvent {e : HostEvent} {s t : State} {a : Nat} (h : hostEvent e s = .next t)
    (hreset : e ≠ .reset) (hwrite : ∀ v, e ≠ .transaction (.srcWrite a v)) :
    srcRead t a = srcRead s a := by
  by_cases hsrc : ∃ b v, e = .transaction (.srcWrite b v)
  · obtain ⟨b, v, rfl⟩ := hsrc
    cases h
    have hab : a ≠ b := fun hab => hwrite v (by rw [hab])
    rw [srcRead_srcWrite, if_neg fun hb => hab hb.1]
  · exact (src_hostEvent h hreset fun b v hb => hsrc ⟨b, v, hb⟩).2 a

/-! ### Reset -/

/-- Every index reads 0 after reset, the reserved ones included (R23, R31). -/
theorem regRead_resetWith (p : Config.Params) (i : Nat) : regRead (State.resetWith p) i = 0 := by
  unfold regRead
  split
  case h_1 r _ =>
    cases r with
    | status => exact statusWord_none_absent
    | _ => rfl
  case h_2 => rfl

/-- Every index reads 0 after a reset event (R31, R98). -/
theorem regRead_resetMachine (s : State) (i : Nat) : regRead (resetMachine s) i = 0 :=
  regRead_resetWith s.cfg i

/-- Where nothing has been written since the last reset, `SRC` reads the free value (R31). -/
theorem srcRead_of_src_nil {s : State} {a : Nat} (hs : s.src = []) (ha : a < s.cfg.srcCap) :
    srcRead s a = Config.src0 s.srcEpoch a := by
  simp [srcRead, hs, ha]

/-- Settles O14: the registers and `SRC` right after reset, and `srcRead_hostEvent` from then on. -/
theorem resetValues : Obligations.ResetValues := by
  refine ⟨fun p a => ⟨regRead_resetWith p, rfl, pbRead_of_absent rfl a, fun ha => ?_⟩,
    fun s rest hs => ?_, fun s t a ht hreset hwrite => ?_⟩
  · exact srcRead_of_src_nil rfl ha
  · refine ⟨resetMachine (withScript rest s), step_cons hs, regRead_resetMachine _, rfl,
      pbRead_of_absent rfl, fun a ha => ?_, rfl, rfl, rfl⟩
    exact srcRead_of_src_nil rfl ha
  · obtain rfl | ⟨e, rest, hs, he⟩ := step_event_cases ht
    · rfl
    · rw [hs] at hreset hwrite
      exact srcRead_hostEvent (s := withScript rest s) he (fun h => hreset (congrArg some h))
        (fun v h => hwrite v (congrArg some h))

/-- Settles O15: both are record updates; the stride and the size read back from 32 bits. -/
theorem bitmapReplacedAtOnce : Obligations.BitmapReplacedAtOnce := fun _ _ _ _ _ _ hstride hsize =>
  ⟨⟨_, _, rfl, (BitVec.toNat_ofNat _ _).trans (Nat.mod_eq_of_lt hstride),
    (BitVec.toNat_ofNat _ _).trans (Nat.mod_eq_of_lt hsize)⟩, rfl⟩

/-! ### The fields of `STATUS` -/

/-- An event that changes the bitmap's side of the state is a reset or a command (R16, R105). -/
theorem bitmapPart_hostEvent {e : HostEvent} {s t : State} (h : hostEvent e s = .next t)
    (hne : bitmapPart t ≠ bitmapPart s) :
    (e = .reset ∧ t = resetMachine s) ∨ ∃ w, e = .transaction (.regWrite 4 w) ∧ cmdWrite w s = .next t := by
  obtain hr | hc | ⟨a, v, -, rfl⟩ | ⟨hpart, -⟩ := hostEvent_cases h
  · exact .inl hr
  · exact .inr hc
  · exact absurd (bitmapPart_srcWrite a v s) hne
  · exact absurd hpart hne

/-- Settles O21: reset leaves no error, so the event is a command. -/
theorem onlyCommandsRaise : Obligations.OnlyCommandsRaise := by
  intro s t ht hs hte
  obtain rfl | ⟨e, rest, hhead, he⟩ := step_event_cases ht
  · exact absurd hs hte
  · have hne : bitmapPart t ≠ bitmapPart (withScript rest s) := fun h =>
      hte ((congrArg State.err h :).trans hs)
    obtain ⟨-, rfl⟩ | ⟨w, rfl, -⟩ := bitmapPart_hostEvent he hne
    · exact absurd rfl hte
    · exact ⟨w, hhead⟩

/-- In the error state a word that changes anything is CLEAR's (R91). -/
theorem cmdWrite_changes_of_error {w : Word} {s t : State} (he : s.err ≠ none)
    (h : cmdWrite w s = .next t) (hne : t ≠ s) : w = 0x00000006 ∧ t = cleared s := by
  obtain ⟨e, he⟩ := Option.ne_none_iff_exists'.mp he
  by_cases hw : w = 0x00000006
  · rw [hw, cmdWrite_clear] at h; cases h; exact ⟨hw, rfl⟩
  · rw [cmdWrite_of_error he hw] at h; cases h; exact absurd rfl hne

/-- Outside the error state a command that changes the kind of the bitmap is PACK, which makes one, or
drops the bitmap by an error entry or as CLEAR (R16). -/
theorem pbKind_exec {i : Instr} {s t : State} (he : s.err = none) (h : exec i s = .next t)
    (hne : t.pbKind ≠ s.pbKind) :
    (i = .pack ∧ t.pbKind ≠ .absent ∧ t.err = none) ∨
      (t.pbKind = .absent ∧ (i = .clear ∨ t.err ≠ none)) := by
  cases i with
  | pack =>
    obtain ⟨herr, -⟩ | ⟨-, -, e, rfl⟩ | ⟨-, strat, -, rfl⟩ := execPack_cases h
    · exact absurd he herr
    · exact .inr ⟨rfl, .inr nofun⟩
    · exact .inl ⟨rfl, kind_ne_absent strat, he⟩
  | rotate angle =>
    obtain ⟨-, rfl⟩ | ⟨-, e, rfl⟩ | ⟨-, -, -, rfl⟩ | ⟨-, hk, r, -, -, -, rfl⟩ := execRotate_cases h
    · exact absurd rfl hne
    · exact .inr ⟨rfl, .inr nofun⟩
    · exact absurd rfl hne
    · exact absurd hk.symm hne
  | stride => rw [exec_stride_of_none he] at h; cases h; exact absurd rfl hne
  | bitaddr => rw [exec_bitaddr_of_none he] at h; cases h; exact absurd rfl hne
  | tailmask => rw [exec_tailmask_of_none he] at h; cases h; exact absurd rfl hne
  | clear => cases h; exact .inr ⟨rfl, .inl rfl⟩

/-- Only the word `0x00000001` is PACK (R56). -/
theorem word_of_decode_pack {w : Word} (h : decode w = .ok .pack) : w = 0x00000001 :=
  BitVec.eq_of_toNat_eq ((decode_ok_iff w .pack).mp h)

/-- Outside the error state a word that changes the kind of the bitmap is PACK's or CLEAR's, or raises an
error (R16, R57). -/
theorem pbKind_cmdWrite {w : Word} {s t : State} (he : s.err = none) (h : cmdWrite w s = .next t)
    (hne : t.pbKind ≠ s.pbKind) :
    (w = 0x00000001 ∧ t.pbKind ≠ .absent ∧ t.err = none) ∨
      (t.pbKind = .absent ∧ (w = 0x00000006 ∨ t.err ≠ none)) := by
  obtain ⟨i, hd, hc⟩ | ⟨r, -, hc⟩ := cmdWrite_cases w s <;> rw [hc] at h
  · obtain ⟨rfl, hmade⟩ | ⟨hk, rfl | hte⟩ := pbKind_exec he h hne
    · exact .inl ⟨word_of_decode_pack hd, hmade⟩
    · exact .inr ⟨hk, .inl (word_of_decode_clear hd)⟩
    · exact .inr ⟨hk, .inr hte⟩
  · rw [execIllegal_of_none he] at h; cases h
    exact .inr ⟨rfl, .inr nofun⟩

/-- Settles O22: each field is changed by a reset or a command, the latter by what it can do in the error
state and outside it. -/
theorem statusFieldsChange : Obligations.StatusFieldsChange := by
  refine ⟨fun s t ht hne => ?_, fun s t ht hne => ?_⟩
  · obtain rfl | ⟨e, rest, hhead, hev⟩ := step_event_cases ht
    · exact absurd rfl hne
    · obtain ⟨rfl, rfl⟩ | ⟨w, rfl, hc⟩ := bitmapPart_hostEvent hev
        (fun h => hne (congrArg State.err h :))
      · exact .inr ⟨rfl, .inl hhead⟩
      · by_cases he : s.err = none
        · exact .inl ⟨he, w, hhead⟩
        · obtain ⟨rfl, rfl⟩ := cmdWrite_changes_of_error (s := withScript rest s) he hc
            (fun h => hne (congrArg State.err h :))
          exact .inr ⟨rfl, .inr hhead⟩
  · obtain rfl | ⟨e, rest, hhead, hev⟩ := step_event_cases ht
    · exact absurd rfl hne
    · obtain ⟨rfl, rfl⟩ | ⟨w, rfl, hc⟩ := bitmapPart_hostEvent hev
        (fun h => hne (congrArg State.pbKind h :))
      · exact .inr ⟨rfl, .inl hhead⟩
      · by_cases he : s.err = none
        · obtain ⟨rfl, hk, hte⟩ | ⟨hk, rfl | hte⟩ :=
            pbKind_cmdWrite (s := withScript rest s) he hc hne
          · exact .inl ⟨hk, hte, hhead⟩
          · exact .inr ⟨hk, .inr (.inl hhead)⟩
          · exact .inr ⟨hk, .inr (.inr ⟨he, hte⟩)⟩
        · obtain ⟨rfl, rfl⟩ := cmdWrite_changes_of_error (s := withScript rest s) he hc
            (fun h => hne (congrArg State.pbKind h :))
          exact .inr ⟨rfl, .inr (.inl hhead)⟩

end Sys2Proof.Proofs
end

section
/-! Writes of the host to different places commute (R101), and there is no state the host cannot read
(R29). -/

open Sys2Proof Sys2Proof.Machine Sys2Proof.Claims

namespace Sys2Proof.Proofs

/-! ### Writes to different places -/

/-- Writes to different offsets of a memory in canonical form give the same list in either order. -/
theorem write_comm {m : Memory} (hm : Memory.wf m = true) {a b : Nat} (u v : Byte) (hab : a ≠ b) :
    Memory.write (Memory.write m b v) a u = Memory.write (Memory.write m a u) b v := by
  refine wf_ext _ _ (write_wf _ a u (write_wf m b v hm)) (write_wf _ b v (write_wf m a u hm)) fun c => ?_
  by_cases hca : c = a
  · subst hca
    rw [read?_write_self, read?_write_other _ _ _ _ hab, read?_write_self]
  · by_cases hcb : c = b
    · subst hcb
      rw [read?_write_other _ _ _ _ hca, read?_write_self, read?_write_self]
    · rw [read?_write_other _ _ _ _ hca, read?_write_other _ _ _ _ hcb, read?_write_other _ _ _ _ hcb,
        read?_write_other _ _ _ _ hca]

/-- Two writes to `SRC` at different offsets commute, whether or not they lie in `SRC` (R35, R101). -/
theorem srcWrite_comm {s : State} (hs : Memory.wf s.src = true) {a b : Nat} (u v : Byte) (hab : a ≠ b) :
    srcWrite a u (srcWrite b v s) = srcWrite b v (srcWrite a u s) := by
  by_cases ha : a < s.cfg.srcCap
  · by_cases hb : b < s.cfg.srcCap
    · rw [srcWrite_inside hb, srcWrite_inside ha,
        srcWrite_inside (s := { s with src := Memory.write s.src b v }) ha,
        srcWrite_inside (s := { s with src := Memory.write s.src a u }) hb]
      exact congrArg (fun m => { s with src := m }) (write_comm hs u v hab)
    · have hout : ∀ t : State, t.cfg = s.cfg → srcWrite b v t = t := fun t ht =>
        srcWrite_outside (by rw [ht]; omega) v
      rw [hout s rfl, hout _ (srcWrite_cfg a u s)]
  · have hout : ∀ t : State, t.cfg = s.cfg → srcWrite a u t = t := fun t ht =>
      srcWrite_outside (by rw [ht]; omega) u
    rw [hout s rfl, hout _ (srcWrite_cfg b v s)]

/-- Storing a host's write changes the four operand registers at most, each by its own (R34). -/
theorem storeReg_eq (r : RegName) (v : Word) (s : State) :
    storeReg r v s = { s with
      width := if r = .width then v else s.width
      height := if r = .height then v else s.height
      format := if r = .format then v &&& formatMask else s.format
      arg := if r = .arg then v else s.arg } := by
  cases r <;> rfl

/-- Of two registers that differ, at most one is a given register, so the order of the tests is free. -/
theorem ite_comm_of_ne {r r' c : RegName} (h : r ≠ r') (x y z : Word) :
    (if r = c then x else if r' = c then y else z) = if r' = c then y else if r = c then x else z := by
  split_ifs with hr hr'
  · exact absurd (hr.trans hr'.symm) h
  all_goals rfl

/-- Stores to different registers commute (R101). -/
theorem storeReg_comm {r r' : RegName} (h : r ≠ r') (v v' : Word) (s : State) :
    storeReg r v (storeReg r' v' s) = storeReg r' v' (storeReg r v s) := by
  simp only [storeReg_eq, ite_comm_of_ne h]

/-- A write to `SRC` and a store to a register commute (R101). -/
theorem srcWrite_storeReg_comm (a : Nat) (u : Byte) (r : RegName) (v : Word) (s : State) :
    srcWrite a u (storeReg r v s) = storeReg r v (srcWrite a u s) := by
  by_cases ha : a < s.cfg.srcCap
  · have ha' : a < (storeReg r v s).cfg.srcCap := by rwa [storeReg_cfg]
    rw [srcWrite_inside ha, srcWrite_inside ha', storeReg_src, storeReg_eq, storeReg_eq]
  · have ha' : (storeReg r v s).cfg.srcCap ≤ a := by rw [storeReg_cfg]; omega
    rw [srcWrite_outside ha', srcWrite_outside (Nat.not_lt.mp ha)]

/-- Settles O53: each pair of writes by its own lemma. -/
theorem hostWritesCommute : Obligations.HostWritesCommute := fun s hs =>
  ⟨fun _ _ u v hab => srcWrite_comm hs u v hab, fun _ _ v v' h => storeReg_comm h v v' s,
    fun a u r v => srcWrite_storeReg_comm a u r v s⟩

/-! ### States that differ in the listing of `SRC` and in the script alone -/

/-- The state with another listing of `SRC` and another script: what the host cannot read. -/
def relisted (m : Memory) (script : List HostEvent) (s : State) : State :=
  { s with src := m, script := script }

/-- `SRC` reads the same in the relisted state, so the relisted state is read as the state is. -/
def readsAlike (m : Memory) (script : List HostEvent) (s : State) : Prop :=
  srcRead (relisted m script s) = srcRead s

/-- Relisting is not seen by the host where `SRC` reads the same. -/
theorem visiblyEqual_relisted {m : Memory} {script : List HostEvent} {s : State}
    (h : readsAlike m script s) : visiblyEqual s (relisted m script s) :=
  ⟨rfl, fun _ => rfl, fun a => (congrFun h a).symm, fun _ => rfl⟩

/-- Whether `SRC` reads alike is settled by the parameters, the listing and the number of resets. -/
theorem readsAlike_congr {m : Memory} {script : List HostEvent} {s t : State} (hc : t.cfg = s.cfg)
    (hs : t.src = s.src) (he : t.srcEpoch = s.srcEpoch) (h : readsAlike m script s) :
    readsAlike m script t := by
  funext a
  have hrelisted : srcRead (relisted m script t) a = srcRead (relisted m script s) a :=
    srcRead_congr (t := relisted m script t) (s := relisted m script s) hc rfl he a
  rw [hrelisted, congrFun h a, srcRead_congr hc hs he]

/-- A command does on the relisted state what it does on the state: only PACK reads `SRC`, and it reads
the same bytes there (R63, R70). -/
theorem exec_relisted {m : Memory} {script : List HostEvent} {i : Instr} {s t : State}
    (hm : readsAlike m script s) (h : exec i s = .next t) :
    exec i (relisted m script s) = .next (relisted m script t) := by
  cases he : s.err with
  | some e =>
    by_cases hi : i = .clear
    · subst hi; cases h; rfl
    · rw [exec_of_error he hi] at h; cases h
      exact exec_of_error (s := relisted m script s) he hi
  | none =>
    have he' : (relisted m script s).err = none := he
    cases i with
    | pack =>
      cases hf : formatStrategy s.cfg s.format with
      | none =>
        rw [exec_pack_unsupported he hf] at h; cases h
        exact exec_pack_unsupported he' hf
      | some strat =>
        rw [exec_pack_supported he hf] at h
        rw [exec_pack_supported he' hf, hm]
        split_ifs at h with hz hc <;> cases h
        · exact if_pos hz
        · exact (if_neg hz).trans (if_pos hc)
        · exact (if_neg hz).trans (if_neg hc)
    | rotate angle =>
      cases hr : Rotation.ofDegrees angle with
      | none =>
        rw [exec_rotate_badAngle he hr] at h; cases h
        exact exec_rotate_badAngle he' hr
      | some r =>
        rw [exec_rotate_legalAngle he hr] at h
        rw [exec_rotate_legalAngle he' hr]
        split_ifs at h with hk h0 hc <;> cases h
        · exact if_pos hk
        · exact (if_neg hk).trans (if_pos h0)
        · exact (if_neg hk).trans ((if_neg h0).trans (if_pos hc))
        · exact (if_neg hk).trans ((if_neg h0).trans (if_neg hc))
    | stride => rw [exec_stride_of_none he] at h; cases h; exact exec_stride_of_none he'
    | bitaddr => rw [exec_bitaddr_of_none he] at h; cases h; exact exec_bitaddr_of_none he'
    | tailmask => rw [exec_tailmask_of_none he] at h; cases h; exact exec_tailmask_of_none he'
    | clear => cases h; rfl

/-- A write to `CMD` does on the relisted state what it does on the state (R91). -/
theorem cmdWrite_relisted {m : Memory} {script : List HostEvent} {w : Word} {s t : State}
    (hm : readsAlike m script s) (h : cmdWrite w s = .next t) :
    cmdWrite w (relisted m script s) = .next (relisted m script t) := by
  cases hd : decode w with
  | ok i =>
    rw [cmdWrite_of_ok hd] at h ⊢
    exact exec_relisted hm h
  | error r =>
    rw [cmdWrite, hd] at h ⊢
    obtain ⟨he, hill⟩ | ⟨he, hill⟩ := execIllegal_cases s <;> cases hill.symm.trans h
    · exact execIllegal_of_error (s := relisted m script s) he
    · exact execIllegal_of_none (s := relisted m script s) he

/-- A register write does on the relisted state what it does on the state (R34). -/
theorem hostRegWrite_relisted {m : Memory} {script : List HostEvent} {i : Nat} {v : Word} {s t : State}
    (hm : readsAlike m script s) (h : hostRegWrite i v s = .next t) :
    hostRegWrite i v (relisted m script s) = .next (relisted m script t) ∧ readsAlike m script t := by
  unfold hostRegWrite at h ⊢
  split at h
  · have hpart := hostPart_cmdWrite h
    exact ⟨cmdWrite_relisted hm h, readsAlike_congr (congrArg State.cfg hpart :)
      (congrArg State.src hpart :) (congrArg State.srcEpoch hpart :) hm⟩
  · next r _ _ =>
    cases h
    refine ⟨congrArg Host.Outcome.next (by cases r <;> rfl), ?_⟩
    exact readsAlike_congr (storeReg_cfg r v s) (storeReg_src r v s) (storeReg_srcEpoch r v s) hm
  · cases h; exact ⟨rfl, hm⟩

/-- A write to `SRC` relists the relisted state, and both read what was written (R35). -/
theorem srcWrite_relisted {m : Memory} {script : List HostEvent} (a : Nat) (v : Byte) {s : State}
    (hm : readsAlike m script s) :
    srcWrite a v (relisted m script s) =
        relisted (srcWrite a v (relisted m script s)).src script (srcWrite a v s) ∧
      readsAlike (srcWrite a v (relisted m script s)).src script (srcWrite a v s) := by
  have hwrite : srcWrite a v (relisted m script s) =
      relisted (srcWrite a v (relisted m script s)).src script (srcWrite a v s) := by
    unfold srcWrite
    split_ifs <;> rfl
  refine ⟨hwrite, funext fun b => ?_⟩
  rw [← hwrite, srcRead_srcWrite, srcRead_srcWrite, congrFun hm b]
  rfl

/-- An event does on the relisted state what it does on the state, replies included; only a write to
`SRC` and a reset change the listing (R29). -/
theorem hostEvent_relisted {m : Memory} {script : List HostEvent} {e : HostEvent} {s t : State}
    (hm : readsAlike m script s) (h : hostEvent e s = .next t) :
    ∃ m', hostEvent e (relisted m script s) = .next (relisted m' script t) ∧ readsAlike m' script t := by
  cases e with
  | reset => cases h; exact ⟨[], rfl, rfl⟩
  | transaction tr =>
    cases tr with
    | regWrite i v => exact ⟨m, hostRegWrite_relisted hm h⟩
    | srcWrite a v =>
      cases h
      obtain ⟨hwrite, hreads⟩ := srcWrite_relisted a v hm
      exact ⟨_, congrArg Host.Outcome.next hwrite, hreads⟩
    | srcRead a =>
      cases h
      refine ⟨m, ?_, readsAlike_congr rfl rfl rfl hm⟩
      rw [hostEvent, transact, congrFun hm a]; rfl
    | regRead _ | pbRead _ => cases h; exact ⟨m, rfl, readsAlike_congr rfl rfl rfl hm⟩

/-! ### What the host cannot read -/

/-- The error a code in `STATUS.ERR` stands for (R15). -/
def errOfCode (c : BitVec 2) : Option ErrorKind :=
  if c = 1 then some .unsupportedFormat
  else if c = 2 then some .outOfMemory
  else if c = 3 then some .invalidArgument
  else none

/-- The kind a code in `STATUS.PB_KIND` stands for (R15). -/
def kindOfCode (c : BitVec 2) : PbKind :=
  if c = 1 then .bits1 else if c = 2 then .raw else .absent

/-- `STATUS` shows both of its fields (R15). -/
theorem statusWord_inj {e e' : Option ErrorKind} {k k' : PbKind}
    (h : statusWord e k = statusWord e' k') : e = e' ∧ k = k' := by
  have herr : ∀ e k, errOfCode ((statusWord e k).extractLsb' 0 2) = e := fun e k => by
    rw [(statusWord_fields e k).1]
    rcases e with _ | _ | _ | _ <;> rfl
  have hkind : ∀ e k, kindOfCode ((statusWord e k).extractLsb' 4 2) = k := fun e k => by
    rw [(statusWord_fields e k).2.2.1]
    cases k <;> rfl
  exact ⟨by rw [← herr e k, h, herr], by rw [← hkind e k, h, hkind]⟩

/-- Under the invariant the host reads all of `PB` (R103). -/
theorem pb_eq_of_reads {s s' : State} (hs : s.Inv) (hs' : s'.Inv) (hsize : s.pbSize = s'.pbSize)
    (h : ∀ a, pbRead s a = pbRead s' a) : s.pb = s'.pb := by
  rw [← writerOutput_eq_pb hs, ← writerOutput_eq_pb hs', State.writerOutput, State.writerOutput, hsize,
    funext h]

/-- Two states the host cannot tell apart, and that agree in the model's own record, differ in the listing
of `SRC` and in the script alone (R29). -/
theorem eq_relisted_of_visiblyEqual {s s' : State} (hs : s.Inv) (hs' : s'.Inv) (h : visiblyEqual s s')
    (hepoch : s.srcEpoch = s'.srcEpoch) (hreplies : s.replies = s'.replies) :
    s' = relisted s'.src s'.script s := by
  obtain ⟨hcfg, hreg, -, hpb⟩ := h
  obtain ⟨herr, hkind⟩ := statusWord_inj (hreg 5)
  have hbytes := pb_eq_of_reads hs hs' (hreg 9) hpb
  have hwidth : s.width = s'.width := hreg 0
  have hheight : s.height = s'.height := hreg 1
  have hformat : s.format = s'.format := hreg 2
  have harg : s.arg = s'.arg := hreg 3
  have hpbWidth : s.pbWidth = s'.pbWidth := hreg 6
  have hpbHeight : s.pbHeight = s'.pbHeight := hreg 7
  have hpbStride : s.pbStride = s'.pbStride := hreg 8
  have hpbSize : s.pbSize = s'.pbSize := hreg 9
  have hresult0 : s.result0 = s'.result0 := hreg 10
  have hresult1 : s.result1 = s'.result1 := hreg 11
  rw [relisted, hcfg, herr, hkind, hbytes, hwidth, hheight, hformat, harg, hpbWidth, hpbHeight, hpbStride,
    hpbSize, hresult0, hresult1, hepoch, hreplies]

/-- Settles O58: the second state is the first relisted, and so is its next state. -/
theorem noHiddenState : Obligations.NoHiddenState := by
  intro e s s' t t' hs hs' heq hepoch hreplies ht ht'
  have hrelisted := eq_relisted_of_visiblyEqual hs hs' heq hepoch hreplies
  have hm : readsAlike s'.src s'.script s := by
    obtain ⟨-, -, hsrc, -⟩ := heq
    rw [readsAlike, ← hrelisted]
    exact (funext hsrc).symm
  obtain ⟨m, hevent, hreads⟩ := hostEvent_relisted hm ht
  rw [← hrelisted, ht'] at hevent
  cases hevent
  exact ⟨visiblyEqual_relisted hreads, rfl⟩

end Sys2Proof.Proofs
end

section
/-! When PACK succeeds, and what its bitmap depends on (R67 to R70, R100). -/

open Sys2Proof Sys2Proof.Machine Sys2Proof.Claims

namespace Sys2Proof.Proofs

/-! ### When PACK succeeds -/

/-- Outside the error state PACK succeeds exactly when its checks pass (R63, R100). -/
theorem exec_pack_succeeds_iff {s : State} (he : s.err = none) :
    (∃ t, exec .pack s = .next t ∧ t.err = none) ↔ ∃ strat, s.packable strat := by
  constructor
  · rintro ⟨t, ht, hte⟩
    obtain ⟨strat, hp, -⟩ := packable_of_exec_pack he ht hte
    exact ⟨strat, hp⟩
  · rintro ⟨strat, hp⟩
    exact ⟨_, execPack_of_packable he hp, he⟩

/-- Settles O34: the strides written out are those of the strategy `FORMAT` selects. -/
theorem packSucceedsExactly : Obligations.PackSucceedsExactly := by
  intro s he
  rw [exec_pack_succeeds_iff he]
  constructor
  · rintro ⟨strat, hf, hw, hh, hsrc, hpb⟩
    exact ⟨_, _, (strides_iff s _ _).mpr ⟨strat, hf, rfl, rfl⟩, hw, hh, hsrc, hpb⟩
  · rintro ⟨ss, ds, hstrides, hw, hh, hsrc, hpb⟩
    obtain ⟨strat, hf, rfl, rfl⟩ := (strides_iff s ss ds).mp hstrides
    exact ⟨strat, hf, hw, hh, hsrc, hpb⟩

/-! ### The bytes PACK reads -/

/-- A monochrome bitmap depends on its own bytes of `SRC` alone (R67). -/
theorem packMono_congr {rd rd' : Nat → Byte} {w h : Nat} (hrd : ∀ a < stride1 w * h, rd a = rd' a) :
    packMono rd w h = packMono rd' w h := by
  apply List.ext_getElem?
  intro i
  by_cases hi : i < stride1 w * h
  · obtain ⟨y, k, hy, hk, rfl⟩ := offset_cases hi
    rw [packMono_getElem? rd w h hy hk, packMono_getElem? rd' w h hy hk, hrd _ hi]
  · rw [List.getElem?_eq_none (by rw [length_packMono]; omega),
      List.getElem?_eq_none (by rw [length_packMono]; omega)]

/-- Two classified bitmaps with the same dark pixels are the same (R68). -/
theorem packClassify_congr {rd rd' : Nat → Byte} {w h n : Nat}
    (hrd : ∀ x < w, ∀ y < h, isBlack rd (y * (w * n) + x * n) = isBlack rd' (y * (w * n) + x * n)) :
    packClassify rd w h n = packClassify rd' w h n := by
  refine bytes_ext _ _ (stride1 w) h (length_packClassify rd w h n) (length_packClassify rd' w h n)
    fun x hx y hy => ?_
  rw [getBit_packClassify rd w h n hx hy, getBit_packClassify rd' w h n hx hy]
  by_cases hxw : x < w
  · rw [hrd x hxw y hy]
  · simp [hxw]

/-- Whether a pixel is black depends on its first three bytes (R68). -/
theorem isBlack_congr {rd rd' : Nat → Byte} {p : Nat} (h : ∀ c < 3, rd (p + c) = rd' (p + c)) :
    isBlack rd p = isBlack rd' p := by
  rw [Bool.eq_iff_iff, isBlack_iff, isBlack_iff]
  exact forall₂_congr fun c hc => by rw [h c hc]

/-- The bytes of a pixel lie in the frame's (R39). -/
theorem pixelByte_lt {w h n x y c : Nat} (hx : x < w) (hy : y < h) (hc : c < n) :
    y * (w * n) + x * n + c < w * n * h := by
  have hrow : x * n + c < n * w := rowOffset_lt hc hx
  rw [Nat.mul_comm n w] at hrow
  rw [Nat.add_assoc]
  exact rowOffset_lt hrow hy

/-- The bitmap of a strategy depends on the frame's bytes of `SRC` alone; a classified pixel has the three
bytes that are read (R70). -/
theorem pack_congr {rd rd' : Nat → Byte} {w h : Nat} {strat : Strategy}
    (hn : ∀ n, strat = .classify n → 3 ≤ n) (hrd : ∀ a < strat.sourceRow w * h, rd a = rd' a) :
    strat.pack rd w h = strat.pack rd' w h := by
  cases strat with
  | mono =>
    rw [← srcStride_eq] at hrd
    exact packMono_congr hrd
  | classify n =>
    have hn3 : 3 ≤ n := hn n rfl
    refine packClassify_congr fun x hx y hy => isBlack_congr fun c hc => hrd _ ?_
    exact pixelByte_lt hx hy (by omega)
  | rawCopy n =>
    rw [Strategy.pack, Strategy.pack, packRaw_eq_map, packRaw_eq_map]
    exact List.map_congr_left fun a ha => hrd a (List.mem_range.mp ha)

/-- A classified pixel has three or four bytes (R41, R64). -/
theorem classify_bpp {p : Config.Params} {v : Word} {n : Nat}
    (h : formatStrategy p v = some (.classify n)) : n = 3 ∨ n = 4 := by
  unfold formatStrategy strategy at h
  split at h
  case h_2 => cases h; exact .inl rfl
  case h_3 => cases h; exact .inr rfl
  case h_6 =>
    obtain ⟨_, _, hn⟩ := Option.map_eq_some_iff.mp h
    cases hn
  all_goals cases h

/-- Two states outside the error state with the same parameters and operand registers of PACK (R63). -/
structure SameOperands (s s' : State) : Prop where
  cfg : s.cfg = s'.cfg
  err : s.err = none
  err' : s'.err = none
  width : s.width = s'.width
  height : s.height = s'.height
  format : s.format = s'.format

/-- PACK does the same in two states with the same operands that pack to the same bytes (R63, R70). -/
theorem exec_pack_congr {s s' t t' : State} (h : SameOperands s s')
    (hpack : ∀ strat, formatStrategy s.cfg s.format = some strat →
      strat.pack (srcRead s) s.width.toNat s.height.toNat =
        strat.pack (srcRead s') s.width.toNat s.height.toNat)
    (ht : exec .pack s = .next t) (ht' : exec .pack s' = .next t') :
    t.bitmap = t'.bitmap ∧ t.pbSize = t'.pbSize ∧ t.err = t'.err := by
  obtain ⟨hc, he, he', hw, hh, hf⟩ := h
  cases hstrat : formatStrategy s.cfg s.format with
  | none =>
    rw [exec_pack_unsupported he hstrat] at ht
    rw [hc, hf] at hstrat
    rw [exec_pack_unsupported he' hstrat] at ht'
    cases ht; cases ht'
    exact ⟨rfl, rfl, rfl⟩
  | some strat =>
    have hbytes := hpack strat hstrat
    rw [exec_pack_supported he hstrat] at ht
    rw [hc, hf] at hstrat
    rw [exec_pack_supported he' hstrat, ← hc, ← hw, ← hh, ← hbytes] at ht'
    split_ifs at ht ht' <;> cases ht <;> cases ht'
    · exact ⟨rfl, rfl, rfl⟩
    · exact ⟨rfl, rfl, rfl⟩
    · exact ⟨rfl, rfl, he.trans he'.symm⟩

/-- Settles O35: the strides name the bytes the strategy reads. -/
theorem packDependsOnOperandsOnly : Obligations.PackDependsOnOperandsOnly := by
  intro s s' t t' hc he he' hw hh hf hsrc ht ht'
  refine exec_pack_congr ⟨hc, he, he', hw, hh, hf⟩ (fun strat hstrat => ?_) ht ht'
  refine pack_congr (fun n hn => ?_) (hsrc _ _ ((strides_iff s _ _).mpr ⟨strat, hstrat, rfl, rfl⟩))
  have hbpp := classify_bpp (hn ▸ hstrat)
  omega

/-- Two packable states that pack to the same bytes get the same bitmap. -/
theorem bitmap_eq_of_pack_eq {s s' t t' : State} {strat : Strategy} (h : SameOperands s s')
    (hp : s.packable strat)
    (hpack : strat.pack (srcRead s) s.width.toNat s.height.toNat =
      strat.pack (srcRead s') s.width.toNat s.height.toNat)
    (ht : exec .pack s = .next t) (ht' : exec .pack s' = .next t') : t.bitmap = t'.bitmap := by
  obtain ⟨hstrat, -⟩ := hp
  refine (exec_pack_congr h (fun strat' hstrat' => ?_) ht ht').1
  obtain rfl : strat = strat' := Option.some.inj (hstrat.symm.trans hstrat')
  exact hpack

/-! ### Monochrome pixels -/

/-- A pixel of a monochrome bitmap is the source bit inverted (R67). -/
theorem getBit_packMono (rd : Nat → Byte) {w h x y : Nat} (hx : x < w) (hy : y < h) :
    getBit (packMono rd w h) (stride1 w) x y =
      !(rd (y * ((w + 7) / 8) + x / 8)).getLsbD (7 - x % 8) := by
  have hk : x / 8 < stride1 w := bytePos_lt_stride1 hx
  have hbit : 7 - x % 8 < 8 := by omega
  rw [getBit_eq, bitOffset, bytePos, packMono_getElem? rd w h hy hk, Option.getD_some, ← stride1_eq]
  split
  case isTrue hlast =>
    have hvalid : stride1 w * 8 - w ≤ 7 - x % 8 := by omega
    rw [BitVec.getLsbD_and, tailMask_getLsbD w _ hbit, decide_eq_true hvalid, Bool.and_true]
    simp [hbit]
  case isFalse => simp [hbit]

/-- Two monochrome bitmaps of the same source pixels are the same: the padding is clear in both (R67
(c)). -/
theorem packMono_congr_pixels {rd rd' : Nat → Byte} {w h : Nat}
    (hrd : ∀ y < h, ∀ x < w, (rd (y * ((w + 7) / 8) + x / 8)).getLsbD (7 - x % 8) =
      (rd' (y * ((w + 7) / 8) + x / 8)).getLsbD (7 - x % 8)) :
    packMono rd w h = packMono rd' w h := by
  refine bytes_ext _ _ (stride1 w) h (length_packMono rd w h) (length_packMono rd' w h)
    fun x hx8 y hy => ?_
  by_cases hx : x < w
  · rw [getBit_packMono rd hx hy, getBit_packMono rd' hx hy, hrd y hy x hx]
  · rw [getBit_packMono_padding rd hy (Nat.not_lt.mp hx) hx8,
      getBit_packMono_padding rd' hy (Nat.not_lt.mp hx) hx8]

/-- Settles O36: the two states have the same source pixels. -/
theorem monochromeIgnoresGarbageBits : Obligations.MonochromeIgnoresGarbageBits :=
  fun _ _ _ _ hc he he' hw hh hf hp hsrc =>
    bitmap_eq_of_pack_eq ⟨hc, he, he', hw, hh, hf⟩ hp (packMono_congr_pixels hsrc)

/-- Settles O37: the three bytes of a pixel that are read are not at an offset `4k + 3`. -/
theorem classificationIgnoresAlpha : Obligations.ClassificationIgnoresAlpha := by
  intro s s' t t' hc he he' hw hh hf hp hsrc
  refine bitmap_eq_of_pack_eq ⟨hc, he, he', hw, hh, hf⟩ hp (packClassify_congr fun x _ y _ => ?_)
  refine isBlack_congr fun c hc => hsrc _ ?_
  rw [← Nat.mul_assoc]; omega

/-! ### Light and dark rows -/

/-- A byte of an array is the one whose bits are its eight pixels (R8, R46). -/
theorem getElem?_eq_of_getBit {A : List Byte} {stride y k : Nat} {b : Byte}
    (hin : y * stride + k < A.length)
    (hb : ∀ j < 8, getBit A stride (8 * k + j) y = b.getLsbD (7 - j)) :
    A[y * stride + k]? = some b := by
  have hget := List.getElem?_eq_getElem hin
  rw [hget]
  refine congrArg some (BitVec.eq_of_getLsbD_eq fun j hj => ?_)
  have hbit := hb (7 - j) (by omega)
  rwa [getBit_of_getElem? hget (by omega), Nat.sub_sub_self (by omega)] at hbit

/-- A row whose source bits are all `v` packs to the opposite of `v` up to the width, and to clear padding
(R67). -/
theorem getBit_packMono_row {rd : Nat → Byte} {w h x y : Nat} (v : Bool) (hy : y < h)
    (hx8 : x < 8 * stride1 w)
    (hrow : ∀ x < w, (rd (y * ((w + 7) / 8) + x / 8)).getLsbD (7 - x % 8) = v) :
    getBit (packMono rd w h) (stride1 w) x y = (decide (x < w) && !v) := by
  by_cases hx : x < w
  · rw [getBit_packMono rd hx hy, hrow x hx, decide_eq_true hx, Bool.true_and]
  · rw [getBit_packMono_padding rd hy (Nat.not_lt.mp hx) hx8, decide_eq_false hx, Bool.false_and]

/-- A byte with the valid bits set is `0xFF`, or the tail mask when it is the last of its row (R45). -/
theorem getLsbD_validBits {w k j : Nat} (hk : k < stride1 w) (hj : j < 8) :
    (if k + 1 = stride1 w then tailMask w else 0xFF).getLsbD (7 - j) = decide (8 * k + j < w) := by
  have hlast := stride1_lt w
  have hfit := le_stride1 w
  split
  case isTrue h =>
    rw [tailMask_getLsbD w _ (by omega), decide_eq_decide]; omega
  case isFalse h =>
    have hones : ∀ j < 8, (0xFF : Byte).getLsbD (7 - j) = true := by decide
    rw [hones j hj, eq_comm, decide_eq_true_eq]; omega

/-- Settles O38: the bits of a light row are clear, those of a dark row set up to the width. -/
theorem lightAndDarkRows : Obligations.LightAndDarkRows := by
  intro s t row y k hp he ht hrow hy hk
  obtain ⟨herr, -⟩ | ⟨-, hnot, -⟩ | ⟨-, strat, hp', rfl⟩ := execPack_cases ht
  · exact absurd he herr
  · exact absurd hp (hnot .mono)
  · obtain rfl : Strategy.mono = strat := Option.some.inj (hp.1.symm.trans hp'.1)
    subst hrow
    rw [← stride1_eq] at hk
    have hin : y * stride1 s.width.toNat + k <
        (packMono (srcRead s) s.width.toNat s.height.toNat).length := by
      rw [length_packMono]; exact rowOffset_lt hk hy
    rw [newPB_pb, Strategy.pack]
    refine ⟨fun hlight => ?_, fun hdark => ?_⟩ <;> rw [← stride1_eq]
    · refine getElem?_eq_of_getBit hin fun j hj => ?_
      rw [getBit_packMono_row true hy (by omega) hlight, Bool.not_true, Bool.and_false]
      exact (BitVec.getLsbD_zero).symm
    · refine getElem?_eq_of_getBit hin fun j hj => ?_
      rw [getBit_packMono_row false hy (by omega) hdark, Bool.not_false, Bool.and_true,
        getLsbD_validBits hk hj]

end Sys2Proof.Proofs
end

section
/-! The bitmap a rotation makes, pixel by pixel, and rotations one after another (R76 to R79). -/

open Sys2Proof Sys2Proof.Machine Sys2Proof.Claims

namespace Sys2Proof.Proofs

/-! ### The rotated bitmap -/

/-- Width of the rotated bitmap of a state (R76). -/
def rotatedWidth (r : Rotation) (s : State) : Nat := (r.size2 s.pbWidth.toNat s.pbHeight.toNat).1

/-- Height of the rotated bitmap of a state (R76). -/
def rotatedHeight (r : Rotation) (s : State) : Nat := (r.size2 s.pbWidth.toNat s.pbHeight.toNat).2

/-- The bytes of the rotated bitmap (R77). -/
def rotatedBytes (r : Rotation) (s : State) : List Byte :=
  rotateBits s.pb s.pbWidth.toNat s.pbHeight.toNat s.pbStride.toNat r (stride1 (rotatedWidth r s))
    (rotatedHeight r s)

/-- ROTATE's new bitmap, by its size and bytes (R78). -/
theorem rotated_eq (r : Rotation) (s : State) :
    rotated r s = newPB .bits1 (r.width2 s.pbWidth s.pbHeight) (r.height2 s.pbWidth s.pbHeight)
      (stride1 (rotatedWidth r s)) (rotatedBytes r s) s := by
  rw [rotated, width2_toNat, height2_toNat]; rfl

@[simp] theorem rotated_pb (r : Rotation) (s : State) : (rotated r s).pb = rotatedBytes r s := by
  rw [rotated_eq, newPB_pb]

@[simp] theorem rotated_pbWidth_toNat (r : Rotation) (s : State) :
    (rotated r s).pbWidth.toNat = rotatedWidth r s := width2_toNat r s.pbWidth s.pbHeight

@[simp] theorem rotated_pbHeight_toNat (r : Rotation) (s : State) :
    (rotated r s).pbHeight.toNat = rotatedHeight r s := height2_toNat r s.pbWidth s.pbHeight

/-- The stride of the rotated bitmap fits its register (R19, R53). -/
@[simp] theorem rotated_pbStride_toNat (r : Rotation) (s : State) :
    (rotated r s).pbStride.toNat = stride1 (rotatedWidth r s) := by
  rw [rotated_eq, newPB_pbStride, BitVec.toNat_ofNat, rotatedWidth, ← width2_toNat]
  exact Nat.mod_eq_of_lt (stride1_toNat_lt _)

theorem length_rotatedBytes (r : Rotation) (s : State) :
    (rotatedBytes r s).length = stride1 (rotatedWidth r s) * rotatedHeight r s :=
  length_rotateBits _ _ _ _ _ _ _

/-- Every pixel of the bitmap stands where the mapping sends it (R77). -/
theorem getBit_rotatedBytes_dest (r : Rotation) {s : State} {p : Nat × Nat} (hx : p.1 < s.pbWidth.toNat)
    (hy : p.2 < s.pbHeight.toNat) :
    getBit (rotatedBytes r s) (stride1 (rotatedWidth r s))
        (r.dest s.pbWidth.toNat s.pbHeight.toNat p).1 (r.dest s.pbWidth.toNat s.pbHeight.toNat p).2 =
      getBit s.pb s.pbStride.toNat p.1 p.2 :=
  getBit_rotateBits_dest _ _ _ _ r hx hy

/-- The padding of the rotated bitmap is clear (R79 (a)). -/
theorem getBit_rotatedBytes_padding (r : Rotation) {s : State} {x y : Nat} (hx : rotatedWidth r s ≤ x)
    (hx8 : x < 8 * stride1 (rotatedWidth r s)) :
    getBit (rotatedBytes r s) (stride1 (rotatedWidth r s)) x y = false :=
  getBit_rotateBits_padding _ _ _ _ r hx hx8

/-- The rotated bitmap's bytes are those of any array of its size with the pixels where the mapping sends
them and clear padding (R77, R79 (a)). -/
theorem rotatedBytes_unique {r : Rotation} {s : State} {A : List Byte}
    (hlen : A.length = stride1 (rotatedWidth r s) * rotatedHeight r s)
    (hpixel : ∀ p : Nat × Nat, p.1 < s.pbWidth.toNat → p.2 < s.pbHeight.toNat →
      getBit A (stride1 (rotatedWidth r s)) (r.dest s.pbWidth.toNat s.pbHeight.toNat p).1
        (r.dest s.pbWidth.toNat s.pbHeight.toNat p).2 = getBit s.pb s.pbStride.toNat p.1 p.2)
    (hpadding : ∀ x y, rotatedWidth r s ≤ x → x < 8 * stride1 (rotatedWidth r s) →
      y < rotatedHeight r s → getBit A (stride1 (rotatedWidth r s)) x y = false) :
    A = rotatedBytes r s := by
  refine bytes_ext _ _ (stride1 (rotatedWidth r s)) (rotatedHeight r s) hlen (length_rotatedBytes r s)
    fun x hx8 y hy => ?_
  by_cases hx : x < rotatedWidth r s
  · obtain ⟨p, hpx, hpy, hp⟩ := exists_dest_eq r (q := (x, y)) hx hy
    have hA := hpixel p hpx hpy
    have hrot := getBit_rotatedBytes_dest r hpx hpy
    rw [hp] at hA hrot
    exact hA.trans hrot.symm
  · rw [hpadding x y (Nat.not_lt.mp hx) hx8 hy, getBit_rotatedBytes_padding r (Nat.not_lt.mp hx) hx8]

/-! ### One ROTATE -/

/-- The size of the rotated bitmap fits its register when it fits `PB` (R20, R53). -/
theorem rotated_pbSize_toNat {r : Rotation} {s : State} (hc : s.cfg.wf)
    (hfits : rotatedSize r s ≤ s.cfg.pbCap) : (rotated r s).pbSize.toNat = rotatedSize r s := by
  obtain ⟨-, -, -, hpbCap, -, -⟩ := hc
  rw [rotated, newPB_pbSize, ← rotatedSize, BitVec.toNat_ofNat]
  exact Nat.mod_eq_of_lt (by omega)

/-- A quarter turn swaps width and height, and changes the bitmap alone (R76, R78). -/
theorem rotated_of_swaps {r : Rotation} {s : State} (hswaps : r.swaps = true) (hk : s.pbKind = .bits1) :
    rotated r s = { s with
      pbWidth := s.pbHeight, pbHeight := s.pbWidth, pbStride := (rotated r s).pbStride,
      pbSize := (rotated r s).pbSize, pb := rotatedBytes r s } := by
  have hw2 : r.width2 s.pbWidth s.pbHeight = s.pbHeight := if_pos hswaps
  have hh2 : r.height2 s.pbWidth s.pbHeight = s.pbWidth := if_pos hswaps
  rw [rotated_eq, hw2, hh2, newPB_pbStride, newPB_pbSize, newPB, hk]

/-- A half turn, or none, keeps the size and the descriptors of a bitmap (R76, R78). -/
theorem rotated_of_not_swaps {r : Rotation} {s : State} (hswaps : r.swaps = false) (hs : s.BitmapInv)
    (hk : s.pbKind = .bits1) : rotated r s = { s with pb := rotatedBytes r s } := by
  have hw2 : r.width2 s.pbWidth s.pbHeight = s.pbWidth := if_neg (by simp [hswaps])
  have hh2 : r.height2 s.pbWidth s.pbHeight = s.pbHeight := if_neg (by simp [hswaps])
  have hstride : stride1 (rotatedWidth r s) = s.pbStride.toNat := by
    rw [rotatedWidth, ← width2_toNat, hw2, hs.stride_bits1 hk]
  rw [rotated_eq, hw2, hh2, hstride, newPB, ← hs.size_eq, BitVec.ofNat_toNat, BitVec.ofNat_toNat,
    BitVec.setWidth_eq, BitVec.setWidth_eq, hk]

/-- Settles O44: the pixels by `getBit_rotatedBytes_dest`, the padding by `getBit_rotatedBytes_padding`. -/
theorem rotateQuarterTurn : Obligations.RotateQuarterTurn := by
  intro s angle hc he hk hangle hfits
  obtain ⟨r, hr, hswaps, hdest⟩ : ∃ r, Rotation.ofDegrees angle = some r ∧ r.swaps = true ∧
      ∀ w h x y, r.dest w h (x, y) = if angle = 90 then (h - 1 - y, x) else (y, w - 1 - x) := by
    obtain rfl | rfl := hangle
    · exact ⟨.deg90, rfl, rfl, fun _ _ _ _ => rfl⟩
    · exact ⟨.deg270, rfl, rfl, fun _ _ _ _ => rfl⟩
  have h0 : r ≠ .deg0 := by rintro rfl; cases hswaps
  have hwidth : rotatedWidth r s = s.pbHeight.toNat := by rw [rotatedWidth, Rotation.size2, if_pos hswaps]
  have hstride : (rotated r s).pbStride.toNat = stride1 (rotatedWidth r s) := rotated_pbStride_toNat r s
  have hrow : (rotated r s).pbStride.toNat = (s.pbHeight.toNat + 7) / 8 := by
    rw [hstride, hwidth, stride1_eq]
  rw [← rotatedSize_of_swaps hswaps] at hfits
  have hsize : (rotated r s).pbSize.toNat = (rotated r s).pbStride.toNat * s.pbWidth.toNat := by
    rw [rotated_pbSize_toNat hc hfits, rotatedSize_of_swaps hswaps, hrow]
  refine ⟨(rotated r s).pbStride, (rotated r s).pbSize, rotatedBytes r s, ?_, hrow, hsize, ?_,
    fun rx hx ry hy => ?_, fun wx wy hx hx8 _ => ?_⟩
  · rw [exec_rotate_turn he hk hr h0, if_neg (Nat.not_lt.mpr hfits), ← rotated_of_swaps hswaps hk]
  · rw [length_rotatedBytes, hsize, hstride, rotatedHeight, Rotation.size2, if_pos hswaps]
  · have hpixel := getBit_rotatedBytes_dest r (p := (rx, ry)) hx hy
    rw [hdest, ← hstride, getBit_eq_pixelAt, getBit_eq_pixelAt] at hpixel
    rw [← hpixel]
    split_ifs <;> rfl
  · rw [hstride] at hx8
    rw [hstride, ← getBit_eq_pixelAt]
    exact getBit_rotatedBytes_padding r (hwidth ▸ hx) hx8

/-- Settles O45: the half turn keeps the descriptors, and its pixels and padding are those of
`rotatedBytes`. -/
theorem rotateHalfTurn : Obligations.RotateHalfTurn := by
  intro s hs he hk
  have hb := hs.bitmap (by simp [hk])
  have hfits := rotatedSize_deg180_le hb hk
  have hstride : s.pbStride.toNat = stride1 (rotatedWidth .deg180 s) := hb.stride_bits1 hk
  refine ⟨rotatedBytes .deg180 s, ?_, ?_, fun rx hx ry hy => ?_, fun wx wy hx hx8 _ => ?_⟩
  · rw [exec_rotate_turn (r := .deg180) he hk rfl (by decide), if_neg (Nat.not_lt.mpr hfits),
      rotated_of_not_swaps rfl hb hk]
  · rw [length_rotatedBytes, ← hstride, hb.size_eq]; rfl
  · have hpixel := getBit_rotatedBytes_dest .deg180 (p := (rx, ry)) hx hy
    rw [← hstride, getBit_eq_pixelAt, getBit_eq_pixelAt] at hpixel
    exact hpixel.symm
  · rw [← getBit_eq_pixelAt, hstride]
    exact getBit_rotatedBytes_padding .deg180 hx (hstride ▸ hx8)

/-! ### Rotations one after another -/

/-- The rotation that two rotations in turn make: their quarter turns added (R79). -/
def composed : Rotation → Rotation → Rotation
  | .deg0, r => r
  | r, .deg0 => r
  | .deg90, .deg90 => .deg180
  | .deg90, .deg180 => .deg270
  | .deg90, .deg270 => .deg0
  | .deg180, .deg90 => .deg270
  | .deg180, .deg180 => .deg0
  | .deg180, .deg270 => .deg90
  | .deg270, .deg90 => .deg0
  | .deg270, .deg180 => .deg90
  | .deg270, .deg270 => .deg180

/-- The size after two rotations is that after the composed one (R76, R79). -/
theorem size2_composed (r r' : Rotation) (w h : Nat) :
    (composed r r').size2 w h = r'.size2 (r.size2 w h).1 (r.size2 w h).2 := by
  cases r <;> cases r' <;> rfl

/-- A pixel goes through two rotations where the composed one sends it (R76, R79). -/
theorem dest_composed (r r' : Rotation) {w h : Nat} {p : Nat × Nat} (hx : p.1 < w) (hy : p.2 < h) :
    (composed r r').dest w h p = r'.dest (r.size2 w h).1 (r.size2 w h).2 (r.dest w h p) := by
  cases r <;> cases r' <;>
    simp only [composed, Rotation.dest, Rotation.size2, Rotation.swaps, mirror_mirror, hx, hy, if_true,
      if_false, Bool.false_eq_true]

/-- The size of a bitmap rotated twice is that of the composed rotation (R76, R79). -/
theorem rotatedSize2_composed (r r' : Rotation) (s : State) :
    rotatedWidth r' (rotated r s) = rotatedWidth (composed r r') s ∧
      rotatedHeight r' (rotated r s) = rotatedHeight (composed r r') s := by
  simp only [rotatedWidth, rotatedHeight, rotated_pbWidth_toNat, rotated_pbHeight_toNat, size2_composed,
    and_self]

/-- The bytes of a bitmap rotated twice are those of the composed rotation: each pixel is followed through
both (R79). -/
theorem rotatedBytes_rotated (r r' : Rotation) (s : State) :
    rotatedBytes r' (rotated r s) = rotatedBytes (composed r r') s := by
  obtain ⟨hwidth, hheight⟩ := rotatedSize2_composed r r' s
  refine rotatedBytes_unique ?_ (fun p hx hy => ?_) (fun x y hx hx8 _ => ?_)
  · rw [length_rotatedBytes, hwidth, hheight]
  · obtain ⟨hx', hy'⟩ := dest_lt r hx hy
    have hpixel := getBit_rotatedBytes_dest r' (s := rotated r s)
      (p := r.dest s.pbWidth.toNat s.pbHeight.toNat p) (by rwa [rotated_pbWidth_toNat])
      (by rwa [rotated_pbHeight_toNat])
    rw [rotated_pb, rotated_pbStride_toNat, getBit_rotatedBytes_dest r hx hy, rotated_pbWidth_toNat,
      rotated_pbHeight_toNat, hwidth] at hpixel
    rw [dest_composed r r' hx hy]
    exact hpixel
  · rw [← hwidth] at hx hx8 ⊢
    exact getBit_rotatedBytes_padding r' hx hx8

/-- Rotating twice is the composed rotation, as states (R79). -/
theorem rotated_rotated (r r' : Rotation) (s : State) :
    rotated r' (rotated r s) = rotated (composed r r') s := by
  have hw2 : r'.width2 (rotated r s).pbWidth (rotated r s).pbHeight =
      (composed r r').width2 s.pbWidth s.pbHeight := by
    cases r <;> cases r' <;> rfl
  have hh2 : r'.height2 (rotated r s).pbWidth (rotated r s).pbHeight =
      (composed r r').height2 s.pbWidth s.pbHeight := by
    cases r <;> cases r' <;> rfl
  obtain ⟨hwidth, -⟩ := rotatedSize2_composed r r' s
  rw [rotated_eq r', rotated_eq (composed r r'), hw2, hh2, hwidth, rotatedBytes_rotated]
  rfl

/-- The rotation by no turn gives back a bitmap that meets the invariant (R26 (d), R75). -/
theorem rotated_deg0 {s : State} (h : holdsBits1 s) : rotated .deg0 s = s := by
  obtain ⟨hs, -, hk⟩ := h
  have hb := hs.bitmap (by simp [hk])
  have hstride : s.pbStride.toNat = stride1 (rotatedWidth .deg0 s) := hb.stride_bits1 hk
  have hbytes : s.pb = rotatedBytes .deg0 s := by
    refine rotatedBytes_unique ?_ (fun p _ _ => ?_) (fun x y hx hx8 hy => ?_)
    · rw [hb.length_eq, hb.size_eq, hstride]; rfl
    · rw [← hstride]; rfl
    · rw [← hstride] at hx8 ⊢
      exact getBit_padding hb hk hy hx hx8
  rw [rotated_of_not_swaps rfl hb hk, ← hbytes]

/-- A ROTATE that succeeds has a rotation's angle, and with a turn it leaves the rotated state (R72,
R78). -/
theorem rotates_cases {angle : Nat} {s t : State} (h : rotates angle s t) :
    s.pbKind = .bits1 ∧ ((angle = 0 ∧ t = s) ∨
      ∃ r, Rotation.ofDegrees angle = some r ∧ r ≠ .deg0 ∧ t = rotated r s) := by
  obtain ⟨hexec, he, hte⟩ := h
  obtain ⟨herr, -⟩ | ⟨-, e, rfl⟩ | ⟨-, hk, h0, ht⟩ | ⟨-, hk, r, hr, h0, -, ht⟩ := execRotate_cases hexec
  · exact absurd he herr
  · cases hte
  · exact ⟨hk, .inl ⟨h0, ht⟩⟩
  · exact ⟨hk, .inr ⟨r, hr, h0, ht⟩⟩

/-- A ROTATE by a rotation's turn that succeeds leaves the rotated state (R78). -/
theorem eq_rotated_of_rotates {r : Rotation} {s t : State} (h : rotates r.degrees s t) (h0 : r ≠ .deg0) :
    t = rotated r s := by
  obtain ⟨-, ⟨hangle, -⟩ | ⟨r', hr', -, rfl⟩⟩ := rotates_cases h
  · cases r with
    | deg0 => exact absurd rfl h0
    | deg90 | deg180 | deg270 => cases hangle
  · have hr : Rotation.ofDegrees r.degrees = some r := by cases r <;> rfl
    rw [Option.some.inj (hr.symm.trans hr')]

/-- Settles O46: the two turns compose to none. -/
theorem oppositeRotationsCancel : Obligations.OppositeRotationsCancel := by
  intro s t u a b hs hab hst htu
  have cancel : ∀ r r' : Rotation, r ≠ .deg0 → r' ≠ .deg0 → composed r r' = .deg0 →
      rotates r.degrees s t → rotates r'.degrees t u → u = s := by
    intro r r' h0 h0' hcomposed hr hr'
    obtain rfl := eq_rotated_of_rotates hr h0
    obtain rfl := eq_rotated_of_rotates hr' h0'
    rw [rotated_rotated, hcomposed, rotated_deg0 hs]
  simp only [List.mem_cons, Prod.mk.injEq, List.not_mem_nil, or_false] at hab
  obtain ⟨rfl, rfl⟩ | ⟨rfl, rfl⟩ | ⟨rfl, rfl⟩ := hab
  · exact cancel .deg90 .deg270 (by decide) (by decide) rfl hst htu
  · exact cancel .deg270 .deg90 (by decide) (by decide) rfl hst htu
  · exact cancel .deg180 .deg180 (by decide) (by decide) rfl hst htu

/-- Settles O47: four quarter turns compose to none. -/
theorem fourQuarterTurnsCancel : Obligations.FourQuarterTurnsCancel := by
  intro s t u v w hs ht hu hv hw
  obtain rfl := eq_rotated_of_rotates (r := .deg90) ht (by decide)
  obtain rfl := eq_rotated_of_rotates (r := .deg90) hu (by decide)
  obtain rfl := eq_rotated_of_rotates (r := .deg90) hv (by decide)
  obtain rfl := eq_rotated_of_rotates (r := .deg90) hw (by decide)
  rw [rotated_rotated, rotated_rotated, rotated_rotated]
  exact rotated_deg0 hs

/-- Settles O48: each side is one composed turn. -/
theorem rotationsCompose : Obligations.RotationsCompose := by
  refine ⟨fun s t u v _ ht hu hv => ?_, fun s t u v _ ht hu hv => ?_⟩
  · obtain rfl := eq_rotated_of_rotates (r := .deg90) ht (by decide)
    obtain rfl := eq_rotated_of_rotates (r := .deg90) hu (by decide)
    obtain rfl := eq_rotated_of_rotates (r := .deg180) hv (by decide)
    exact rotated_rotated .deg90 .deg90 s
  · obtain rfl := eq_rotated_of_rotates (r := .deg90) ht (by decide)
    obtain rfl := eq_rotated_of_rotates (r := .deg180) hu (by decide)
    obtain rfl := eq_rotated_of_rotates (r := .deg270) hv (by decide)
    exact rotated_rotated .deg90 .deg180 s

/-! ### Dark pixels -/

/-- The dark pixels are counted over the pixel positions (R38). -/
theorem darkPixels_eq_countP (s : State) :
    darkPixels s = (pixels s.pbWidth.toNat s.pbHeight.toNat).countP fun p =>
      getBit s.pb s.pbStride.toNat p.1 p.2 := by
  simp only [darkPixels, pixels, List.countP_flatMap, List.countP_map, Function.comp_def,
    getBit_eq_pixelAt]

/-- A rotation sends the pixel positions of the source onto those of the destination, each once (R76). -/
theorem map_dest_pixels_perm (r : Rotation) (w h : Nat) :
    ((pixels w h).map (r.dest w h)).Perm (pixels (r.size2 w h).1 (r.size2 w h).2) := by
  rw [List.perm_ext_iff_of_nodup _ (nodup_pixels _ _)]
  · intro q
    rw [List.mem_map, mem_pixels]
    constructor
    · rintro ⟨p, hp, rfl⟩
      obtain ⟨hx, hy⟩ := mem_pixels.mp hp
      exact dest_lt r hx hy
    · rintro ⟨hx, hy⟩
      obtain ⟨p, hpx, hpy, hp⟩ := exists_dest_eq r hx hy
      exact ⟨p, mem_pixels.mpr ⟨hpx, hpy⟩, hp⟩
  · refine (nodup_pixels w h).map_on fun p hp q hq hpq => ?_
    obtain ⟨hpx, hpy⟩ := mem_pixels.mp hp
    obtain ⟨hqx, hqy⟩ := mem_pixels.mp hq
    exact dest_inj r hpx hpy hqx hqy hpq

/-- The rotated bitmap has as many dark pixels as the bitmap (R79, T10). -/
theorem darkPixels_rotated (r : Rotation) (s : State) : darkPixels (rotated r s) = darkPixels s := by
  rw [darkPixels_eq_countP, darkPixels_eq_countP, rotated_pb, rotated_pbWidth_toNat,
    rotated_pbHeight_toNat, rotated_pbStride_toNat, rotatedWidth, rotatedHeight,
    ← (map_dest_pixels_perm r s.pbWidth.toNat s.pbHeight.toNat).countP_eq, List.countP_map]
  refine List.countP_congr fun p hp => ?_
  obtain ⟨hx, hy⟩ := mem_pixels.mp hp
  rw [← getBit_rotatedBytes_dest r hx hy]
  rfl

/-- Settles O49: angle 0 changes nothing, and a turn leaves the rotated bitmap. -/
theorem rotationKeepsDarkPixels : Obligations.RotationKeepsDarkPixels := by
  intro s t angle _ h
  obtain ⟨-, ⟨-, rfl⟩ | ⟨r, -, -, rfl⟩⟩ := rotates_cases h
  · rfl
  · exact darkPixels_rotated r s

end Sys2Proof.Proofs
end

section
/-! How a run ends (R110), and the transactions of a script (R60, R61). -/

open Sys2Proof Sys2Proof.Machine

namespace Sys2Proof.Proofs

/-! ### The end of a run -/

/-- In the error state a run has failed (R110). -/
theorem runEnd_of_error {s : State} {e : ErrorKind} (he : s.err = some e) : s.runEnd = .failed e := by
  rw [State.runEnd, he]

/-- Without an error and a bitmap a run ends empty (R110). -/
theorem runEnd_of_absent {s : State} (he : s.err = none) (hk : s.pbKind = .absent) :
    s.runEnd = .empty := by
  rw [State.runEnd, he, hk]

/-- Without an error and with a bitmap a run ends with the bitmap (R102, R110). -/
theorem runEnd_of_bitmap {s : State} (he : s.err = none) (hk : s.pbKind ≠ .absent) :
    s.runEnd = .result s.bitmap := by
  rw [State.runEnd, he]
  split
  case h_1 h => cases h
  case h_2 h => exact absurd h hk
  case h_3 => rfl

/-- Settles O59: the three cases of the last state exclude one another, and so do the three ends. -/
theorem endOfRun : Obligations.EndOfRun := by
  intro s
  cases he : s.err with
  | some e => simp [runEnd_of_error he]
  | none =>
    by_cases hk : s.pbKind = .absent
    · simp [runEnd_of_absent he hk, hk]
    · simp [runEnd_of_bitmap he hk, hk, State.bitmap]

/-! ### Scripts -/

/-- `wr` and `rd` use the index of the register they name (R9, R60). -/
theorem expand_register {r : RegName} {i : Nat} (hi : r.index = i) :
    (∀ v, (Stmt.wr r v).expand = [.regWrite i v]) ∧ ∀ want, (Stmt.rd r want).expand = [.regRead i] := by
  subst hi; exact ⟨fun _ => rfl, fun _ => rfl⟩

/-- The registers in R9's order have the indexes from 0 up. -/
theorem index_of_mem_registers {p : RegName × Nat}
    (hp : p ∈ [(RegName.width, 0), (.height, 1), (.format, 2), (.arg, 3), (.cmd, 4), (.status, 5),
      (.pbWidth, 6), (.pbHeight, 7), (.pbStride, 8), (.pbSize, 9), (.result0, 10), (.result1, 11)]) :
    p.1.index = p.2 := by
  revert p; decide

/-- `fill` writes its bytes to the offsets from `a` up (R61). -/
theorem expand_fill_getElem? (a : Nat) (bytes : List Byte) (k : Nat) :
    (Stmt.fill a bytes).expand[k]? = bytes[k]?.map fun b => .srcWrite (a + k) b := by
  simp [Stmt.expand, List.getElem?_zipIdx, Function.comp_def]

/-- `dump` reads as many bytes of the bitmap as it expects (R61). -/
theorem expand_dump_getElem? (bytes : List Byte) (k : Nat) :
    (Stmt.dump bytes).expand[k]? = if k < bytes.length then some (.pbRead k) else none := by
  by_cases hk : k < bytes.length
  · simp [Stmt.expand, hk]
  · simp [Stmt.expand, hk]

/-- Settles O60: the registers by their indexes, the commands by their words, `fill` and `dump` by their
lists, the rest by definition. -/
theorem scriptExpansion : Obligations.ScriptExpansion := by
  refine ⟨fun p hp => expand_register (index_of_mem_registers hp), fun _ _ => rfl, fun _ _ => rfl,
    fun _ _ => rfl, fun i => ?_, fun _ => rfl, fun r => ?_, fun _ layout _ => ?_, fun _ _ => rfl,
    expand_fill_getElem?, expand_dump_getElem?, fun _ => rfl, fun _ => rfl, fun _ => rfl, rfl,
    fun _ _ => rfl⟩
  · cases i <;> rfl
  · cases r <;> rfl
  · cases layout <;> rfl

end Sys2Proof.Proofs
end
